-- ==== Sys2Proof/Word.lean ====
section
/-! DEFINITION. The 32-bit word of the load interface and one row of the codebook. -/

namespace Sys2Proof

/-- A word of the table image and of a response field: `W_BITS = W_COUNT = W_VALUE = W_LEN = 32` (00_scope R5). -/
abbrev Word := BitVec 32

/-- One CodeEntry, its four fields verbatim and in the order of R50 (30_encoding R50, 10_state R13).
`size` is a whole word whose legal values are 1..32; `value` is read as two's complement. -/
structure CodeEntry where
  size  : Word
  bits  : Word
  count : Word
  value : Word
  deriving DecidableEq, Repr

end Sys2Proof
end

