-- ==== Sys2Proof/Config.lean ====
section
/-! DEFINITION. The parameters of the block (00_scope R5): the fixed ones as constants, the OPEN ones as a
structure that the state carries unchanged. -/

namespace Sys2Proof.Config

/-- `S_LIMIT`, the largest legal codeword size (00_scope R5, 92 D3). -/
def sLimit : Nat := 32

/-- The two readings of the source's end-of-stream sentence that 41_matcher R92 spells out. -/
inductive ExhaustPolicy where
  /-- `BY_LENGTH`: a failed match with fewer than `S_MAX` bits left is exhaustion. -/
  | byLength
  /-- `BY_VIABILITY`: it is exhaustion only if a longer entry still agrees with the bits seen. -/
  | byViability
  deriving DecidableEq, Repr

/-- `EXHAUST_POLICY = BY_LENGTH` (00_scope R5, 92 D8). -/
def exhaustPolicy : ExhaustPolicy := .byLength

/-- The OPEN parameters that are arguments of the model (00_scope R5). The third, `N_LANES`, is the number of
lanes the state holds; the fourth, `W_POS`, needs no value, since positions are natural numbers (10_state R19).
DESIGN CHOICE, log 1: the state carries them, so a statement about every state holds for every value of them. -/
structure Params where
  /-- `N_MAX`, the capacity of the codebook store in entries. -/
  nMax : Nat
  /-- `N_MAX >= 1`: a store holds at least one entry (R5). -/
  nMaxPos : 1 ≤ nMax := by decide
  /-- `VALIDATE_PREFIX_FREE`, whether `LOAD` checks the prefix-free invariant. -/
  validatePrefixFree : Bool
  deriving DecidableEq, Repr

/-- The values `State.reset` takes: no capacity (40_codebook_load R74) and the default of R5.
DESIGN CHOICE, log 1. -/
def atReset : Params := { nMax := 2 ^ 32 - 1, validatePrefixFree := true }

/-- `N_LANES` of `State.reset`. DESIGN CHOICE, log 2. -/
def lanesAtReset : Nat := 2

end Sys2Proof.Config
end

