-- ==== Sys2Proof/Syntax.lean ====
section
/-! DEFINITION. The operations and stream symbols of spec/opcode_table.json, one constructor a row. -/

namespace Sys2Proof

/-- What the table lists: the three commands of the ports (30_encoding R57) and the three symbols of a lane's
bitstream, the "program" of the lane (00_scope R2, 30_encoding R53). `lane` is the port or the stream the
instruction stands on: the hardware has it as the place, not as bits (R57, R129). -/
inductive Instr where
  /-- `LOAD` with the declared `length` and the entries the transaction delivered (40_codebook_load R70). -/
  | load (length : Word) (entries : List CodeEntry)
  /-- `GETRLV` on the decode port of `lane` (41_matcher R85). -/
  | getrlv (lane : Nat)
  /-- `GETRUN` on the decode port of `lane` (42_rundecoder R100). -/
  | getrun (lane : Nat)
  /-- `SYM.RUN`: the codeword `k` of a run entry, in stream order (30_encoding R53 (a)). -/
  | symRun (lane : Nat) (k : List Bool)
  /-- `SYM.MARKER`: the codeword `k` of a marker entry (R53 (b)). -/
  | symMarker (lane : Nat) (k : List Bool)
  /-- `SYM.VALUE`: the codeword `k` of a value entry, then the sign code `g`, `true` for 1 (R53 (c), R56). -/
  | symValue (lane : Nat) (k : List Bool) (g : Bool)
  deriving DecidableEq, Repr

end Sys2Proof
end

