-- ==== Sys2Proof/Machine/State.lean ====
section
/-! DEFINITION. The state of the block, its ports and the host's pending acts, as plain data; the reasons a step
can stop; the state after reset. -/

namespace Sys2Proof.Machine

/-- The three error kinds (60_exceptions R115). They are reported in a response, they stop nothing. -/
inductive ErrorKind where
  | malformedCodebook
  | bitstreamExhausted
  | unmatchedCodeword
  deriving DecidableEq, Repr

/-- The response of `LOAD` (10_state R22): `ld_status`. -/
inductive LoadResponse where
  | ok
  | error (kind : ErrorKind)
  deriving DecidableEq, Repr

/-- The response of a decode operation, a sum (30_encoding R59): the fields of the other outcome do not exist. -/
inductive Response where
  | ok (count value idx : Word) (marker : Bool)
  | error (kind : ErrorKind) (errPos : Nat)
  deriving DecidableEq, Repr

/-- A cursor as the block sees it (10_state R17): the stream's bits in stream order and the bit position. -/
structure Cursor where
  stream : List Bool
  pos    : Nat
  deriving DecidableEq, Repr

/-- One decode lane (60_exceptions R129): its cursor, the command that waits at its decode port (30_encoding R57;
log 6) and the response most recently given there (an output, not state of the spec: log 5). -/
structure Lane where
  cursor : Cursor
  port   : Option (BitVec 1)
  resp   : Option Response
  deriving DecidableEq, Repr

/-- What the host can do to the block and its cursors (70_reset_and_hazards R140, R142, R145; 20_memory R31; log 8). -/
inductive HostAct where
  /-- The reset event (R140). -/
  | reset
  /-- Put a table transaction on the load port (30_encoding R57). -/
  | issueLoad (words : List Word)
  /-- Put a command on a lane's decode port (30_encoding R57). -/
  | issueDecode (lane : Nat) (op : BitVec 1)
  /-- Append bits at the end of a lane's stream (20_memory R31, R46). -/
  | append (lane : Nat) (bits : List Bool)
  /-- Reposition a lane's cursor (R145). -/
  | seek (lane pos : Nat)
  /-- Give a lane a fresh cursor over a stream, at position 0 (R142 (3), 10_state R25). -/
  | attach (lane : Nat) (bits : List Bool)
  deriving DecidableEq, Repr

/-- Everything the machine holds: the shared codebook state and the lanes (10_state R10), and the model's own
fields: parameters (log 1), the load port and its response (log 5, 6), the acts the host has still to make (log 8). -/
structure State where
  /-- `CB_OK` (10_state R11). -/
  cbOk     : Bool
  /-- `CB_LEN` (10_state R12). -/
  cbLen    : Word
  /-- `S_MAX` (10_state R14). -/
  sMax     : BitVec 6
  /-- `CB[0 .. CB_LEN-1]` (10_state R13; log 3). -/
  cb       : List CodeEntry
  /-- The lanes `0 .. N_LANES-1` (60_exceptions R129). -/
  lanes    : List Lane
  /-- `N_MAX` and `VALIDATE_PREFIX_FREE` (00_scope R5). -/
  cfg      : Config.Params
  /-- The table transaction that waits at the load port. -/
  loadPort : Option (List Word)
  /-- The response of the most recent `LOAD`. -/
  ldResp   : Option LoadResponse
  /-- The host's acts still to come, in order. -/
  hostActs : List HostAct
  deriving DecidableEq, Repr

/-- Why the machine stops. -/
inductive Fault where
  /-- Raised by `LOAD` when `CB_OK = 1`, and by step when only such a `LOAD` waits and the host has no act left:
  it is not accepted and has no step (40_codebook_load R71, 70 R144, 93 U14 "stuck"). Safe. -/
  | loadNotAccepted
  /-- Raised by a decode when `CB_OK = 0`, and by step when only such a decode waits and the host has no act left:
  it is not accepted and has no step (41_matcher R86, 42_rundecoder R101, 70 R144, 93 U14 "stuck"). Safe. -/
  | decodeNotAccepted
  /-- Raised by a decode, a symbol or a host act that names a lane the block does not have (60_exceptions R129,
  log 16). Safe. -/
  | noSuchLane
  /-- A `Take` of more bits than remain, which the BitCursor gives no step (93 U8, log 16). No instruction
  reaches it (20_memory R47). Safe. -/
  | overlongTake
  /-- Raised by a stream symbol run on a lane whose cursor does not stand at that symbol (log 11). Step runs
  commands only and never raises it. Safe. -/
  | symbolNotAtCursor
  deriving DecidableEq, Repr

/-- Why the model gives no meaning: each is an input the spec puts outside itself (93, treatment `refuse`). -/
inductive Refusal where
  /-- An arm of `exec` without a meaning. Safe. -/
  | notModelled (mnemonic : String)
  /-- Raised by step for a table transaction without a length word (93 U11, log 14). Safe. -/
  | noLengthWord
  /-- Raised by step for a table transaction that ends inside an entry (40_codebook_load R70, 93 U11, log 14). Safe. -/
  | brokenEntry
  /-- Raised by a host act that issues an operation on a port where one still waits (20_memory R42, 93 U9, log 6). Safe. -/
  | portBusy
  /-- Raised by a host act that would set a cursor outside its stream (10_state R17, log 8). Safe. -/
  | seekOutsideStream
  deriving DecidableEq, Repr

/-- A lane nothing has been set up on: the empty stream at position 0 (10_state R17, R25; log 4). -/
def Lane.fresh : Lane := { cursor := { stream := [], pos := 0 }, port := none, resp := none }

/-- The block after reset (10_state R25) with given parameters and number of lanes. -/
def State.resetWith (p : Config.Params) (nLanes : Nat) : State where
  cbOk := false
  cbLen := 0
  sMax := 0
  cb := []
  lanes := List.replicate nLanes Lane.fresh
  cfg := p
  loadPort := none
  ldResp := none
  hostActs := []

/-- The machine right after reset (10_state R25; logs 1 to 6 and 8 for what the spec leaves open). -/
def State.reset : State := State.resetWith Config.atReset Config.lanesAtReset

end Sys2Proof.Machine
end

