-- ==== Sys2Proof/Machine/Flags.lean ====
section
/-! DEFINITION. The one flag-like output, `marker` (10_state R21), and the status codes (30_encoding R58). The
block has no condition codes (R21). -/

namespace Sys2Proof.Machine

/-- `marker = 1` if the matched entry has `count == 0` and `value == 0` (10_state R21). -/
def markerOf (e : CodeEntry) : Bool := e.count == 0 && e.value == 0

/-- The two-bit code of an error kind (30_encoding R58, 60_exceptions R115). -/
def ErrorKind.code : ErrorKind → BitVec 2
  | .malformedCodebook => 1
  | .bitstreamExhausted => 2
  | .unmatchedCodeword => 3

/-- The field `ld_status[1:0]` of a `LOAD` response (30_encoding R58). -/
def LoadResponse.status : LoadResponse → BitVec 2
  | .ok => 0
  | .error k => k.code

/-- The field `status[1:0]` of a decode response (30_encoding R58, R59). -/
def Response.status : Response → BitVec 2
  | .ok .. => 0
  | .error k _ => k.code

end Sys2Proof.Machine
end

