-- ==== Sys2Proof/Machine/Operands.lean ====
section
/-! DEFINITION. Operand assembly: codewords, candidate prefixes, the prefix relation, entry classes, the match
set and the selection (30_encoding R52 to R56, 41_matcher R87 to R95). None of it reads the state. -/

namespace Sys2Proof.Machine

/-- The number a bit string denotes, first stream bit most significant (20_memory R34, R37). -/
def bitsVal (bs : List Bool) : Nat := bs.foldl (fun acc b => 2 * acc + b.toNat) 0

/-- `cw(e) = e.bits mod 2^(e.size)` (30_encoding R52). -/
def cw (e : CodeEntry) : Nat := e.bits.toNat % 2 ^ e.size.toNat

/-- The bits of `cw(e)` in stream order: bit `size - 1` first, bit 0 last (20_memory R37). -/
def cwBits (e : CodeEntry) : List Bool :=
  (List.range e.size.toNat).map fun j => (cw e).testBit (e.size.toNat - 1 - j)

/-- `pre(L, w, s) = w >> (L - s)` (30_encoding R54). -/
def pre (L w s : Nat) : Nat := w >>> (L - s)

/-- Entry `e` matches the look-ahead `(L, w)` (30_encoding R54). -/
def entryMatches (L w : Nat) (e : CodeEntry) : Bool :=
  decide (e.size.toNat ≤ L) && pre L w e.size.toNat == cw e

/-- With `a` the entry of smaller or equal size, `cw(a) == cw(b) >> (b.size - a.size)` (30_encoding R55). -/
def isPrefixEntry (a b : CodeEntry) : Bool := cw a == cw b >>> (b.size.toNat - a.size.toNat)

/-- Two entries collide: the shorter codeword is a bit-prefix of the longer (40_codebook_load R76). -/
def collide (x y : CodeEntry) : Bool :=
  if x.size.toNat ≤ y.size.toNat then isPrefixEntry x y else isPrefixEntry y x

/-- No two entries at distinct indices collide (30_encoding R55, 40_codebook_load R76). -/
def prefixFree : List CodeEntry → Bool
  | [] => true
  | e :: es => es.all (fun f => !collide e f) && prefixFree es

/-- A legal `size` is in `1 .. S_LIMIT` (40_codebook_load R75). -/
def sizeOk (e : CodeEntry) : Bool := decide (1 ≤ e.size.toNat) && decide (e.size.toNat ≤ Config.sLimit)

/-- The largest `size` of a list of entries, 0 for none (10_state R14). -/
def maxSize (es : List CodeEntry) : Nat := es.foldr (fun e m => max e.size.toNat m) 0

/-- The three classes of an entry (30_encoding R53). -/
inductive SymClass where
  | run
  | marker
  | value
  deriving DecidableEq, Repr

/-- The class of an entry, by its data fields alone (30_encoding R53). -/
def classOf (e : CodeEntry) : SymClass :=
  if e.value ≠ 0 then .value else if e.count = 0 then .marker else .run

/-- The match set `M` of R88, each matching entry with its index, in table order. -/
def matchSet (cb : List CodeEntry) (L w : Nat) : List (CodeEntry × Nat) :=
  cb.zipIdx.filter fun p => entryMatches L w p.1

/-- The selection of R90: of the largest size in the set, the smallest index. -/
def selectEntry (M : List (CodeEntry × Nat)) : Option (CodeEntry × Nat) :=
  M.find? fun p => p.1.size.toNat == maxSize (M.map Prod.fst)

/-- Some entry longer than the look-ahead still agrees with the bits seen (41_matcher R92, `BY_VIABILITY`). -/
def viable (cb : List CodeEntry) (L w : Nat) : Bool :=
  cb.any fun e => decide (L < e.size.toNat) && cw e >>> (e.size.toNat - L) == w

/-- What a lookup yields (41_matcher R95). -/
inductive LookupResult where
  | found (i : Nat) (e : CodeEntry)
  | exhausted
  | unmatched
  deriving DecidableEq, Repr

/-- How a failed lookup is reported (41_matcher R92, R93) under a policy. -/
def missKind (pol : Config.ExhaustPolicy) (cb : List CodeEntry) (sMax L w : Nat) : LookupResult :=
  if L < sMax then
    match pol with
    | .byLength => .exhausted
    | .byViability => if viable cb L w then .exhausted else .unmatched
  else .unmatched

/-- `Lookup` on a look-ahead `(L, w)` (41_matcher R95). -/
def lookupIn (pol : Config.ExhaustPolicy) (cb : List CodeEntry) (sMax L w : Nat) : LookupResult :=
  match selectEntry (matchSet cb L w) with
  | some (e, i) => .found i e
  | none => missKind pol cb sMax L w

/-- `neg_32(v) = (2^32 - v) mod 2^32` on the bit pattern (42_rundecoder R106). -/
def neg32 (v : Word) : Word := BitVec.ofNat 32 (2 ^ 32 - v.toNat)

/-- The sign rule: `value` as it stands for sign code 0, negated for 1 (30_encoding R56, 42_rundecoder R104). -/
def signedValue (v : Word) (g : Bool) : Word := if g then neg32 v else v

end Sys2Proof.Machine
end

