-- ==== Sys2Proof/Machine/Ops.lean ====
section
/-! DEFINITION. The named operations: the four cursor primitives (20_memory R32 to R35), the codebook reads, the
lookup at a cursor, acceptance, and ending an operation with a result or with an error. -/

namespace Sys2Proof.Machine

/-- `Remaining(c)` (20_memory R33). -/
def Cursor.remaining (c : Cursor) : Nat := c.stream.length - c.pos

/-- The bits from the cursor on, `b[pos(c)]` first (10_state R17). -/
def Cursor.rest (c : Cursor) : List Bool := c.stream.drop c.pos

/-- `Peek(c, n)` (20_memory R34): how many bits, and their value, first stream bit most significant. -/
def Cursor.peek (c : Cursor) (n : Nat) : Nat × Nat :=
  let k := min n c.remaining
  (k, bitsVal (c.rest.take k))

/-- `Take(c, n)` (20_memory R35). It has no step when fewer than `n` bits remain (93 U8). -/
def Cursor.take (c : Cursor) (n : Nat) : Option (Nat × Cursor) :=
  if n ≤ c.remaining then some ((c.peek n).2, { c with pos := c.pos + n }) else none

/-- The codebook `CB[0 .. CB_LEN-1]`: nothing at an index from `CB_LEN` on exists (10_state R13). -/
def State.entries (s : State) : List CodeEntry := s.cb.take s.cbLen.toNat

/-- `Lookup(c)` (41_matcher R95). No state change. -/
def State.lookup (s : State) (c : Cursor) : LookupResult :=
  let p := c.peek s.sMax.toNat
  lookupIn Config.exhaustPolicy s.entries s.sMax.toNat p.1 p.2

/-- Lane `l` replaced. -/
def State.setLane (s : State) (l : Nat) (ln : Lane) : State := { s with lanes := s.lanes.set l ln }

/-- Acceptance of a decode on lane `l`: the lane exists (60_exceptions R129) and `CB_OK = 1` (41_matcher R86,
42_rundecoder R101); otherwise the operation has no step. -/
def acceptDecode (l : Nat) (s : State) (k : Lane → Host.Outcome State Fault Refusal) :
    Host.Outcome State Fault Refusal :=
  match s.lanes[l]? with
  | none => .fault .noSuchLane
  | some ln => if s.cbOk then k ln else .fault .decodeNotAccepted

/-- An operation on lane `l` ends: the cursor where it now stands and the response given (30_encoding R59). -/
def respond (l : Nat) (ln : Lane) (c : Cursor) (r : Response) (s : State) : Host.Outcome State Fault Refusal :=
  .next (s.setLane l { ln with cursor := c, resp := some r })

/-- Raising a decode error, the block's "taking an exception" (60_exceptions R120, R122): the response carries
the kind and `err_pos = p0`; the cursor and everything else stay. There is no handler and no return (R125). -/
def raiseDecode (l : Nat) (ln : Lane) (kind : ErrorKind) (s : State) : Host.Outcome State Fault Refusal :=
  respond l ln ln.cursor (.error kind ln.cursor.pos) s

/-- Raising `MalformedCodebook` (40_codebook_load R78, R79; 60_exceptions R122): the response, and nothing written.
Log 15. -/
def raiseMalformed (s : State) : Host.Outcome State Fault Refusal :=
  .next { s with ldResp := some (.error .malformedCodebook) }

/-- A successful decode of entry `e` at index `i` that reports `value` as it is in the entry: consume exactly
`e.size` bits (41_matcher R91, 42_rundecoder R103). -/
def takeEntry (l : Nat) (ln : Lane) (i : Nat) (e : CodeEntry) (s : State) : Host.Outcome State Fault Refusal :=
  match ln.cursor.take e.size.toNat with
  | none => .fault .overlongTake
  | some (_, c) => respond l ln c (.ok e.count e.value (BitVec.ofNat 32 i) (markerOf e)) s

/-- A value entry under `GETRUN`: error if the sign bit is missing, before anything is consumed (42_rundecoder
R105), else `e.size` bits and the sign bit (R104). -/
def takeSigned (l : Nat) (ln : Lane) (i : Nat) (e : CodeEntry) (s : State) : Host.Outcome State Fault Refusal :=
  if ln.cursor.remaining < e.size.toNat + 1 then raiseDecode l ln .bitstreamExhausted s
  else
    match ln.cursor.take e.size.toNat with
    | none => .fault .overlongTake
    | some (_, c) =>
      match c.take 1 with
      | none => .fault .overlongTake
      | some (g, c') => respond l ln c' (.ok e.count (signedValue e.value (g == 1)) (BitVec.ofNat 32 i) false) s

/-- The shared state at its reset values (10_state R25, 70 R140): `CB_OK`, `CB_LEN`, `S_MAX` 0, no entry left. -/
def State.clearShared (s : State) : State := { s with cbOk := false, cbLen := 0, sMax := 0, cb := [] }

/-- The canonical form of the two address spaces (20_memory R30): the store lists exactly `CB_LEN` entries
(10_state R13) and every cursor stands within its stream (10_state R17). -/
def Memory.wf (s : State) : Bool :=
  s.cb.length == s.cbLen.toNat && s.lanes.all fun ln => decide (ln.cursor.pos ≤ ln.cursor.stream.length)

/-- A lane's response discarded. -/
def Lane.dropResp (ln : Lane) : Lane := { ln with resp := none }

end Sys2Proof.Machine
end

