-- ==== Sys2Proof/Machine/Codebook.lean ====
section
/-! DEFINITION. The Codebook family: `LOAD` (40_codebook_load). -/

namespace Sys2Proof.Machine

/-- No check of R72 to R76 fires (40_codebook_load R79). -/
def tableOk (p : Config.Params) (len : Word) (es : List CodeEntry) : Bool :=
  len.toNat == es.length &&                        -- R72
  len != 0 &&                                      -- R73
  decide (len.toNat ≤ p.nMax) &&                   -- R74
  es.all sizeOk &&                                 -- R75
  (!p.validatePrefixFree || prefixFree es)         -- R76

/-- The state a successful `LOAD` leaves (40_codebook_load R77). -/
def State.accept (s : State) (len : Word) (es : List CodeEntry) : State :=
  { s with
    cb := es
    cbLen := len
    sMax := BitVec.ofNat 6 (maxSize es)
    cbOk := true
    ldResp := some .ok }

/-- `LOAD` (40_codebook_load R79): accepted only when `CB_OK = 0` (R71). -/
def execLoad (len : Word) (es : List CodeEntry) (s : State) : Host.Outcome State Fault Refusal :=
  if s.cbOk then .fault .loadNotAccepted
  else if tableOk s.cfg len es then .next (s.accept len es)
  else raiseMalformed s

end Sys2Proof.Machine
end

