-- ==== Sys2Proof/Machine/Matcher.lean ====
section
/-! DEFINITION. The CodewordMatcher family: `GETRLV` (41_matcher_getrlv). -/

namespace Sys2Proof.Machine

/-- `GETRLV` (41_matcher R95). -/
def execGetrlv (l : Nat) (s : State) : Host.Outcome State Fault Refusal :=
  acceptDecode l s fun ln =>
    match s.lookup ln.cursor with
    | .exhausted => raiseDecode l ln .bitstreamExhausted s
    | .unmatched => raiseDecode l ln .unmatchedCodeword s
    | .found i e => takeEntry l ln i e s

end Sys2Proof.Machine
end

