-- ==== Sys2Proof/Machine/RunDecoder.lean ====
section
/-! DEFINITION. The RunDecoder family: `GETRUN` (42_rundecoder_getrun). -/

namespace Sys2Proof.Machine

/-- `GETRUN` (42_rundecoder R107). -/
def execGetrun (l : Nat) (s : State) : Host.Outcome State Fault Refusal :=
  acceptDecode l s fun ln =>
    match s.lookup ln.cursor with
    | .exhausted => raiseDecode l ln .bitstreamExhausted s
    | .unmatched => raiseDecode l ln .unmatchedCodeword s
    | .found i e => if e.value = 0 then takeEntry l ln i e s else takeSigned l ln i e s

end Sys2Proof.Machine
end

