-- ==== Sys2Proof/Machine/Symbols.lean ====
section
/-! DEFINITION. The stream symbols `SYM.RUN`, `SYM.MARKER`, `SYM.VALUE` (30_encoding R53): what `GETRUN` does when
that symbol stands at the cursor (42_rundecoder R103, R104, R107). Log 11. -/

namespace Sys2Proof.Machine

/-- The symbol at lane `l`'s cursor is a whole codeword `k` of an entry of class `cls`: go on with the entry. -/
def atSymbol (l : Nat) (cls : SymClass) (k : List Bool) (s : State)
    (go : Lane → Nat → CodeEntry → Host.Outcome State Fault Refusal) : Host.Outcome State Fault Refusal :=
  acceptDecode l s fun ln =>
    match s.lookup ln.cursor with
    | .found i e => if classOf e = cls ∧ cwBits e = k then go ln i e else .fault .symbolNotAtCursor
    | .exhausted => .fault .symbolNotAtCursor
    | .unmatched => .fault .symbolNotAtCursor

/-- `SYM.RUN` (42_rundecoder R103): `e.size` bits, no sign bit. -/
def execSymRun (l : Nat) (k : List Bool) (s : State) : Host.Outcome State Fault Refusal :=
  atSymbol l .run k s fun ln i e => takeEntry l ln i e s

/-- `SYM.MARKER` (42_rundecoder R103): `e.size` bits, reported with `marker = 1`. -/
def execSymMarker (l : Nat) (k : List Bool) (s : State) : Host.Outcome State Fault Refusal :=
  atSymbol l .marker k s fun ln i e => takeEntry l ln i e s

/-- `SYM.VALUE` (42_rundecoder R104): `e.size` bits and the sign code `g`, the stream bit after them. -/
def execSymValue (l : Nat) (k : List Bool) (g : Bool) (s : State) : Host.Outcome State Fault Refusal :=
  atSymbol l .value k s fun ln i e =>
    if ln.cursor.rest[e.size.toNat]? = some g then takeSigned l ln i e s else .fault .symbolNotAtCursor

end Sys2Proof.Machine
end

