-- ==== Sys2Proof/Machine/Dispatch.lean ====
section
/-! DEFINITION. One arm per constructor of `Instr`, each one call of its meaning. -/

namespace Sys2Proof.Machine

def exec (i : Instr) (s : State) : Host.Outcome State Fault Refusal :=
  match i with
  | .load len es => Sys2Proof.Machine.execLoad len es s
  | .getrlv l => Sys2Proof.Machine.execGetrlv l s
  | .getrun l => Sys2Proof.Machine.execGetrun l s
  | .symRun l k => Sys2Proof.Machine.execSymRun l k s
  | .symMarker l k => Sys2Proof.Machine.execSymMarker l k s
  | .symValue l k g => Sys2Proof.Machine.execSymValue l k g s

end Sys2Proof.Machine
end

