-- ==== Sys2Proof/WellFormed.lean ====
section
/-! DEFINITION. Which instructions are terms of the hardware: a lane that exists, a codeword of a legal size. -/

namespace Sys2Proof

/-- A codeword has 1 to `S_LIMIT` bits (30_encoding R50, R60 (b)). -/
def codewordOk (k : List Bool) : Bool := decide (1 ≤ k.length) && decide (k.length ≤ Config.sLimit)

/-- Well-formed on a block with `nLanes` lanes (60_exceptions R129). Any words are legal operands of `LOAD`:
a bad table is an outcome of the operation, not an ill-formed command (40_codebook_load R72 to R76). -/
def Instr.wellFormed (nLanes : Nat) : Instr → Bool
  | .load _ _ => true
  | .getrlv l => decide (l < nLanes)
  | .getrun l => decide (l < nLanes)
  | .symRun l k => decide (l < nLanes) && codewordOk k
  | .symMarker l k => decide (l < nLanes) && codewordOk k
  | .symValue l k _ => decide (l < nLanes) && codewordOk k

end Sys2Proof
end

