-- ==== Sys2Proof/Decode.lean ====
section
/-! DEFINITION. The encoded forms of 30_encoding (table image, decode-port command, stream symbol), the decoder,
which is total and rejects by name, and the encoder written from the same tables. -/

namespace Sys2Proof

open Sys2Proof.Machine

/-- An encoded instruction where it stands: the words of a load transaction (R51), the one-bit `op` of a lane's
decode port (R57), or the bits at a lane's cursor (R53). -/
inductive Image where
  | loadPort (words : List Word)
  | decodePort (lane : Nat) (op : BitVec 1)
  | stream (lane : Nat) (bits : List Bool)
  deriving DecidableEq, Repr

/-- Why the loader's decoder rejects a table transaction (40_codebook_load R70, 93 U11). -/
inductive LoadError where
  /-- It has no `length` word. -/
  | noLengthWord
  /-- It ends inside an entry. -/
  | brokenEntry
  deriving DecidableEq, Repr

/-- Why no whole symbol starts a bit string. -/
inductive SymbolError where
  /-- No entry's codeword starts the bits, and at least `S_MAX` bits are there (30_encoding R60 (c)). -/
  | noSymbol
  /-- The bits end before a codeword is complete (41_matcher R92). -/
  | shortSymbol
  /-- The bits end between the codeword of a value entry and its sign code (42_rundecoder R105). -/
  | noSignBit
  deriving DecidableEq, Repr

/-- Why the decoder rejects an image. Every decode-port command decodes (30_encoding R57). -/
inductive DecodeError where
  | load (e : LoadError)
  | symbol (e : SymbolError)
  deriving DecidableEq, Repr

/-- The four words of an entry, in the order of R51. -/
def entryWords (e : CodeEntry) : List Word := [e.size, e.bits, e.count, e.value]

/-- Whole entries, four words each, or nothing if the words end inside one (30_encoding R51). -/
def decodeEntries : List Word → Option (List CodeEntry)
  | [] => some []
  | s :: b :: c :: v :: ws => (decodeEntries ws).map ({ size := s, bits := b, count := c, value := v } :: ·)
  | _ => none

/-- The table image `T[0 .. 4m]` of a `LOAD` (30_encoding R51, 40_codebook_load R70). -/
def decodeLoad : List Word → Except LoadError Instr
  | [] => .error .noLengthWord
  | len :: ws =>
    match decodeEntries ws with
    | some es => .ok (.load len es)
    | none => .error .brokenEntry

/-- The decode-port command (30_encoding R57): both values of `op` are used. -/
def decodeOp (lane : Nat) (op : BitVec 1) : Instr := if op = 0 then .getrlv lane else .getrun lane

/-- The symbol a matched entry makes with the bits from its codeword on, and the bits after it
(30_encoding R53, R61). -/
def symbolOf (lane : Nat) (e : CodeEntry) (bits : List Bool) : Except SymbolError (Instr × List Bool) :=
  let k := bits.take e.size.toNat
  let rest := bits.drop e.size.toNat
  match classOf e with
  | .run => .ok (.symRun lane k, rest)
  | .marker => .ok (.symMarker lane k, rest)
  | .value =>
    match rest with
    | [] => .error .noSignBit
    | g :: rest' => .ok (.symValue lane k g, rest')

/-- The first symbol of a bit string under a codebook, with the bits after it (30_encoding R53, R54, R61). -/
def decodeSymbol (cb : List CodeEntry) (sMax lane : Nat) (bits : List Bool) :
    Except SymbolError (Instr × List Bool) :=
  let L := min sMax bits.length
  match lookupIn Config.exhaustPolicy cb sMax L (bitsVal (bits.take L)) with
  | .found _ e => symbolOf lane e bits
  | .exhausted => .error .shortSymbol
  | .unmatched => .error .noSymbol

/-- The instruction an image stands for. Only stream symbols need the codebook, which gives their fixed bits. -/
def decode (cb : List CodeEntry) : Image → Except DecodeError Instr
  | .loadPort ws => (decodeLoad ws).mapError .load
  | .decodePort l op => .ok (decodeOp l op)
  | .stream l bits => ((decodeSymbol cb (maxSize cb) l bits).map Prod.fst).mapError .symbol

/-- The image of an instruction (30_encoding R51, R53, R57). -/
def encode : Instr → Image
  | .load len es => .loadPort (len :: es.flatMap entryWords)
  | .getrlv l => .decodePort l 0
  | .getrun l => .decodePort l 1
  | .symRun l k => .stream l k
  | .symMarker l k => .stream l k
  | .symValue l k g => .stream l (k ++ [g])

/-- Further bits after a symbol in its stream; the images at a port have no such neighbour. -/
def Image.followedBy : Image → List Bool → Image
  | .stream l bits, more => .stream l (bits ++ more)
  | img, _ => img

/-- The 32-bit words of a number, first word least significant. -/
def wordsOfNat : Nat → Nat → List Word
  | 0, _ => []
  | n + 1, w => BitVec.ofNat 32 w :: wordsOfNat n (w / 2 ^ 32)

/-- How many words hold `nbits` bits of a table image, rounded up to a length word and whole entries: operand
words the row gives no bits are zeros. -/
def tableWords (nbits : Nat) : Nat := 1 + 4 * (((nbits + 31) / 32 + 2) / 4)

/-- The image that an instruction's bits stand for: under 32 bits the one-bit command of lane 0's decode port
(its `op` is bit 0; the port has no other wire), from 32 bits on a table image. Stream symbols have no fixed bits
of their own and no image here. DESIGN CHOICE, log 12. -/
def tableImage (nbits w : Nat) : Image :=
  if nbits < 32 then .decodePort 0 (BitVec.ofNat 1 w) else .loadPort (wordsOfNat (tableWords nbits) w)

/-- The instruction the decoder reads from the bits `w`, numbered as spec/opcode_table.json numbers them. -/
def decodeTableWord (nbits w : Nat) : Option Instr := (decode [] (tableImage nbits w)).toOption

end Sys2Proof
end

