-- ==== Sys2Proof/Machine/HostPort.lean ====
section
/-! DEFINITION. What the host's acts do (70_reset_and_hazards R140, R142, R145; 20_memory R31, R46). None of them
is an operation of the block. -/

namespace Sys2Proof.Machine

/-- The reset event (70 R140): shared state to its reset values, responses gone, cursors and waiting transactions
left (log 10). -/
def hostReset (s : State) : State :=
  { s.clearShared with lanes := s.lanes.map Lane.dropResp, ldResp := none }

/-- An act on one lane, which must exist (60_exceptions R129). -/
def onLane (l : Nat) (s : State) (k : Lane → Host.Outcome State Fault Refusal) : Host.Outcome State Fault Refusal :=
  match s.lanes[l]? with
  | none => .fault .noSuchLane
  | some ln => k ln

/-- A table transaction is put on the load port; one at a time (log 6). Its response does not exist yet. -/
def hostIssueLoad (ws : List Word) (s : State) : Host.Outcome State Fault Refusal :=
  match s.loadPort with
  | some _ => .refused .portBusy
  | none => .next { s with loadPort := some ws, ldResp := none }

/-- A command is put on a lane's decode port; one at a time (20_memory R42, 93 U9). -/
def hostIssueDecode (l : Nat) (op : BitVec 1) (s : State) : Host.Outcome State Fault Refusal :=
  onLane l s fun ln =>
    match ln.port with
    | some _ => .refused .portBusy
    | none => .next (s.setLane l { ln with port := some op, resp := none })

/-- Bits appended at the end of a lane's stream (20_memory R31, R46). -/
def hostAppend (l : Nat) (bits : List Bool) (s : State) : Host.Outcome State Fault Refusal :=
  onLane l s fun ln =>
    .next (s.setLane l { ln with cursor := { ln.cursor with stream := ln.cursor.stream ++ bits } })

/-- A cursor repositioned, within its stream (70 R145, 10_state R17). -/
def hostSeek (l p : Nat) (s : State) : Host.Outcome State Fault Refusal :=
  onLane l s fun ln =>
    if p ≤ ln.cursor.stream.length then .next (s.setLane l { ln with cursor := { ln.cursor with pos := p } })
    else .refused .seekOutsideStream

/-- A fresh cursor over a stream (70 R142 (3), 10_state R25). -/
def hostAttach (l : Nat) (bits : List Bool) (s : State) : Host.Outcome State Fault Refusal :=
  onLane l s fun ln => .next (s.setLane l { ln with cursor := { stream := bits, pos := 0 } })

/-- One act of the host. -/
def hostAct (a : HostAct) (s : State) : Host.Outcome State Fault Refusal :=
  match a with
  | .reset => .next (hostReset s)
  | .issueLoad ws => hostIssueLoad ws s
  | .issueDecode l op => hostIssueDecode l op s
  | .append l bits => hostAppend l bits s
  | .seek l p => hostSeek l p s
  | .attach l bits => hostAttach l bits s

end Sys2Proof.Machine
end

