-- ==== Sys2Proof/Machine/Fetch.lean ====
section
/-! DEFINITION. Which waiting transaction the block serves next, taken off its port and decoded; what happens when
no port has one the block accepts; and how a transaction is placed at its port. -/

namespace Sys2Proof.Machine

/-- The lowest lane at whose decode port a command waits, with the command. -/
def firstWaiting : Nat → List Lane → Option (Nat × BitVec 1)
  | _, [] => none
  | l, ln :: rest =>
    match ln.port with
    | some op => some (l, op)
    | none => firstWaiting (l + 1) rest

/-- Lane `l`'s waiting command taken off its port. -/
def State.clearPort (s : State) (l : Nat) : State :=
  { s with lanes := s.lanes.modify l fun ln => { ln with port := none } }

/-- The transaction served next: the load port's when `CB_OK = 0` (40_codebook_load R71), a decode port's when
`CB_OK = 1` (41_matcher R86), the lowest waiting lane first (lanes do not interact, 20_memory R43; log 7). With it
comes the state with that transaction taken off its port. `none`: no port has one the block accepts. -/
def fetch (s : State) : Option (Except LoadError Instr × State) :=
  if s.cbOk then
    match firstWaiting 0 s.lanes with
    | some (l, op) => some (.ok (decodeOp l op), s.clearPort l)
    | none => none
  else
    match s.loadPort with
    | some ws => some (decodeLoad ws, { s with loadPort := none })
    | none => none

/-- A table transaction that is not whole has no meaning (40_codebook_load R70, 93 U11; log 14). -/
def refuseTable (e : LoadError) : Host.Outcome State Fault Refusal :=
  match e with
  | .noLengthWord => .refused .noLengthWord
  | .brokenEntry => .refused .brokenEntry

/-- No operation the block accepts and no act of the host left: an operation that waits waits for ever (70 R144);
an idle block holds its state (60_exceptions section 11). Log 9. -/
def quiesce (s : State) : Host.Outcome State Fault Refusal :=
  if s.cbOk then
    match s.loadPort with
    | some _ => .fault .loadNotAccepted
    | none => .next s
  else
    match firstWaiting 0 s.lanes with
    | some _ => .fault .decodeNotAccepted
    | none => .next s

/-- The host's next act, or the end of its acts. -/
def hostTurn (s : State) : Host.Outcome State Fault Refusal :=
  match s.hostActs with
  | a :: rest => hostAct a { s with hostActs := rest }
  | [] => quiesce s

/-- The toy codebook of the source (95_test_vectors section 2, TOY). -/
def toyBook : List CodeEntry :=
  [{ size := 1, bits := 0, count := 1, value := 0 }, { size := 2, bits := 3, count := 1, value := 5 }]

/-- A state in which lane 0's decode port is open: as it is when `CB_OK = 1`, else with the toy codebook loaded
(log 12). -/
def State.withBook (s : State) : State :=
  if s.cbOk then s else { s with cbOk := true, cbLen := 2, sMax := 2, cb := toyBook }

/-- A command waits at lane 0's decode port. -/
def placeOp (op : BitVec 1) : List Lane → List Lane
  | [] => [{ Lane.fresh with port := some op }]
  | ln :: rest => { ln with port := some op } :: rest

/-- The transaction of an image put at its port, with the port open for it: no codebook loaded for a table, one
loaded for a decode (log 12). Stream bits are no transaction and are not placed. -/
def State.place (s : State) : Image → State
  | .loadPort ws => { s.clearShared with loadPort := some ws }
  | .decodePort _ op => { s.withBook with lanes := placeOp op s.lanes }
  | .stream _ _ => s

end Sys2Proof.Machine
end

