-- ==== Sys2Proof/Machine/Step.lean ====
section
/-! DEFINITION. One step: the block serves the next operation it accepts, else the host makes its next act. -/

namespace Sys2Proof.Machine

def step (s : State) : Host.Outcome State Fault Refusal :=
  match fetch s with
  | some (.ok i, s') => exec i s'
  | some (.error e, _) => refuseTable e
  | none => hostTurn s

/-- `s` with the instruction of the bits `w` waiting at its port, as the next one the block serves (log 12). -/
def State.withFetchWord (s : State) (nbits w : Nat) : State := s.place (tableImage nbits w)

end Sys2Proof.Machine
end

