-- ==== Sys2Proof/Safety.lean ====
section
/-! DEFINITION. The terms claims are stated in: the invariant of a run, the match of R54 and the selection of R90
as propositions, what counts as the rest of the state, and sequences of operations. -/

namespace Sys2Proof.Machine

/-- The next state of an outcome, if it is one. -/
def nextState (o : Host.Outcome State Fault Refusal) : Option State :=
  match o with
  | .next t => some t
  | .fault _ => none
  | .refused _ => none

/-- An outcome with its next state changed. -/
def onNext (f : State → State) (o : Host.Outcome State Fault Refusal) : Host.Outcome State Fault Refusal :=
  match o with
  | .next t => .next (f t)
  | .fault r => .fault r
  | .refused r => .refused r

/-- With no codebook, `CB_LEN` and `S_MAX` are 0 (10_state R12, R14). -/
abbrev State.EmptyOk (s : State) : Prop := s.cbOk = false → s.cbLen = 0 ∧ s.sMax = 0

/-- With a codebook: `1 <= CB_LEN <= N_MAX` (10_state R12), every size legal and the table prefix-free if it was
validated (R15), `S_MAX` the largest size (R14). -/
abbrev State.BookOk (s : State) : Prop :=
  s.cbOk = true →
    1 ≤ s.cbLen.toNat ∧ s.cbLen.toNat ≤ s.cfg.nMax ∧ s.sMax.toNat = maxSize s.cb ∧ s.cb.all sizeOk = true ∧
    (s.cfg.validatePrefixFree = true → prefixFree s.cb = true)

/-- The invariant of the machine: the canonical form of its address spaces (10_state R13, R17), at least one lane
(60_exceptions R129), and the codebook's own invariants (10_state R12, R14, R15). That `N_MAX >= 1` (00_scope R5)
needs no clause: `Config.Params` holds no other value. -/
abbrev State.Inv (s : State) : Prop :=
  Memory.wf s = true ∧ 1 ≤ s.lanes.length ∧ s.EmptyOk ∧ s.BookOk

/-- Entry `e` matches the look-ahead `(L, w)`, in the words of R54 and R52. -/
abbrev Matches (L w : Nat) (e : CodeEntry) : Prop :=
  e.size.toNat ≤ L ∧ w >>> (L - e.size.toNat) = e.bits.toNat % 2 ^ e.size.toNat

/-- No entry of the codebook matches: the match set `M` of R88 is empty. -/
abbrev NoMatch (cb : List CodeEntry) (L w : Nat) : Prop := ∀ e ∈ cb, ¬ Matches L w e

/-- `i` is the selected index `i*` of R90 and `e` its entry: in the match set, of the largest size there, and of
the smallest index of that size. -/
abbrev Selected (cb : List CodeEntry) (L w i : Nat) (e : CodeEntry) : Prop :=
  cb[i]? = some e ∧ Matches L w e ∧
    ∀ (j : Nat) (f : CodeEntry), cb[j]? = some f → Matches L w f →
      f.size.toNat ≤ e.size.toNat ∧ (f.size.toNat = e.size.toNat → i ≤ j)

/-- Entry `a` is a bit-prefix of entry `b`, of smaller or equal size (30_encoding R55). -/
abbrev BitPrefix (a b : CodeEntry) : Prop :=
  a.size.toNat ≤ b.size.toNat ∧
    a.bits.toNat % 2 ^ a.size.toNat = (b.bits.toNat % 2 ^ b.size.toNat) >>> (b.size.toNat - a.size.toNat)

/-- No two entries at distinct indices are in the relation of R55. -/
abbrev PrefixFree (es : List CodeEntry) : Prop :=
  ∀ (i j : Nat) (a b : CodeEntry), i ≠ j → es[i]? = some a → es[j]? = some b → ¬ BitPrefix a b

/-- A size of 1 to 32 (40_codebook_load R75). -/
abbrev LegalSize (e : CodeEntry) : Prop := 1 ≤ e.size.toNat ∧ e.size.toNat ≤ 32

/-- A decode that ends on lane `l`, whose lane was `ln`: the cursor at `p`, the response `r`, all else as in `s`. -/
def State.decoded (s : State) (l : Nat) (ln : Lane) (p : Nat) (r : Response) : State :=
  { s with lanes := s.lanes.set l { ln with cursor := { ln.cursor with pos := p }, resp := some r } }

/-- The two commands of a decode port. -/
inductive IsDecode (l : Nat) : Instr → Prop where
  | getrlv : IsDecode l (.getrlv l)
  | getrun : IsDecode l (.getrun l)

/-- Instructions one after another, stopping at the first that answers no next state. -/
def execAll : List Instr → State → Host.Outcome State Fault Refusal
  | [], s => .next s
  | i :: is, s =>
    match exec i s with
    | .next t => execAll is t
    | .fault r => .fault r
    | .refused r => .refused r

/-- The response without the table index. -/
def Response.dropIdx : Response → Response
  | .ok count value _ marker => .ok count value 0 marker
  | .error k p => .error k p

end Sys2Proof.Machine

namespace Sys2Proof

open Sys2Proof.Machine

/-- The lane an instruction acts on; `LOAD` acts on none. -/
def Instr.lane? : Instr → Option Nat
  | .load _ _ => none
  | .getrlv l => some l
  | .getrun l => some l
  | .symRun l _ => some l
  | .symMarker l _ => some l
  | .symValue l _ _ => some l

/-- A symbol of the codebook: its codeword is that of an entry of its class (30_encoding R53). A command is no
symbol and needs none. -/
def Instr.inBook (cb : List CodeEntry) : Instr → Prop
  | .load _ _ => True
  | .getrlv _ => True
  | .getrun _ => True
  | .symRun _ k => ∃ e ∈ cb, e.value = 0 ∧ e.count ≠ 0 ∧ cwBits e = k
  | .symMarker _ k => ∃ e ∈ cb, e.value = 0 ∧ e.count = 0 ∧ cwBits e = k
  | .symValue _ k _ => ∃ e ∈ cb, e.value ≠ 0 ∧ cwBits e = k

end Sys2Proof
end

