-- ==== Sys2Proof/Certificates/Slice0/Obligations.lean ====
section
/-! DEFINITION. The statements for the provers, each from the numbered rules its docstring names. -/

open Sys2Proof Sys2Proof.Machine

/-! ### Reset and the invariant -/

/-- R25: after reset `CB_OK`, `CB_LEN` and `S_MAX` are 0, whatever the store holds none of it is readable, and no
response exists; for every value of the OPEN parameters, and for `State.reset`. -/
def Obligations.ResetHoldsNoCodebook : Prop :=
  (∃ p n, State.reset = State.resetWith p n) ∧
  ∀ (p : Config.Params) (n : Nat) (store : List CodeEntry),
    (State.resetWith p n).cbOk = false ∧ (State.resetWith p n).cbLen = 0 ∧ (State.resetWith p n).sMax = 0 ∧
    ({ State.resetWith p n with cb := store }).entries = [] ∧
    (State.resetWith p n).ldResp = none ∧ ∀ ln ∈ (State.resetWith p n).lanes, ln.resp = none

/-- R140, R25: the reset event puts the shared state to its reset values, touches no cursor, leaves no response;
after it the load port accepts a `LOAD` and no decode port accepts anything. -/
def Obligations.ResetEventDiscardsTheCodebook : Prop :=
  ∀ s : State, ∃ t, hostAct .reset s = .next t ∧
    t.cbOk = false ∧ t.cbLen = 0 ∧ t.sMax = 0 ∧ t.entries = [] ∧ t.ldResp = none ∧
    t.lanes.length = s.lanes.length ∧
    (∀ (l : Nat) (ln : Lane), s.lanes[l]? = some ln →
      ∃ ln', t.lanes[l]? = some ln' ∧ ln'.cursor = ln.cursor ∧ ln'.resp = none) ∧
    (∀ len es, ∃ t', exec (.load len es) t = .next t') ∧
    ∀ l i, l < s.lanes.length → IsDecode l i → exec i t = .fault .decodeNotAccepted

/-- The machine at reset meets its invariant, whatever the OPEN parameters, with at least one lane. The empty
streams and the position 0 are the model's choice (log 4). -/
def Obligations.ResetMeetsInvariant : Prop :=
  State.reset.Inv ∧ ∀ (p : Config.Params) (n : Nat), 1 ≤ n → (State.resetWith p n).Inv

/-- Every step keeps the invariant (10_state R12, R13, R14, R15, R17, R19): the store lists exactly `CB_LEN`
entries; while `CB_OK = 1`, `1 <= CB_LEN <= N_MAX`, every size is 1..32, `S_MAX` is the largest size, a validated
table is prefix-free; while `CB_OK = 0`, `CB_LEN` and `S_MAX` are 0; every cursor stands within its stream. -/
def Obligations.StepKeepsInvariant : Prop :=
  ∀ s t : State, s.Inv → step s = .next t → t.Inv

/-! ### The step -/

/-- A step runs the decoded instruction. With `CB_OK = 0` the load port's transaction, taken off the port; with
`CB_OK = 1` the command of the lowest lane at which one waits, taken off its port (the order of lanes is the
model's choice, log 7). -/
def Obligations.StepRunsTheDecodedInstruction : Prop :=
  (∀ (s : State) (ws : List Word) (i : Instr), s.cbOk = false → s.loadPort = some ws → decodeLoad ws = .ok i →
    step s = exec i { s with loadPort := none }) ∧
  ∀ (s : State) (l : Nat) (ln : Lane) (op : BitVec 1), s.cbOk = true → s.lanes[l]? = some ln → ln.port = some op →
    (∀ (j : Nat) (ln' : Lane), j < l → s.lanes[j]? = some ln' → ln'.port = none) →
    step s = exec (if op = 0 then .getrlv l else .getrun l)
      { s with lanes := s.lanes.set l { ln with port := none } }

/-- The bits `w` placed as the next transaction run as the instruction the decoder reads from them, from every
state: on a block without a codebook for a table, with one for a decode. The placing is the model's (log 12). -/
def Obligations.PlacedWordRunsNext : Prop :=
  ∀ (s : State) (nbits w : Nat) (i : Instr), decodeTableWord nbits w = some i →
    ∃ s', fetch (s.withFetchWord nbits w) = some (.ok i, s') ∧ step (s.withFetchWord nbits w) = exec i s' ∧
      s'.cbOk = decide (nbits < 32) ∧ s'.hostActs = s.hostActs ∧ s'.cfg = s.cfg

/-- When no port has a transaction the block accepts, the host makes its next act: an issue fills an empty port, an
append lengthens a stream at its end, a seek repositions a cursor within its stream, a fresh cursor starts at
position 0 (the acts as data are the model's, log 8). -/
def Obligations.HostActsWhenNoPortIsServed : Prop :=
  (∀ (s : State) (a : HostAct) (rest : List HostAct), fetch s = none → s.hostActs = a :: rest →
    step s = hostAct a { s with hostActs := rest }) ∧
  (∀ (s : State) (ws : List Word), s.loadPort = none →
    hostAct (.issueLoad ws) s = .next { s with loadPort := some ws, ldResp := none }) ∧
  ∀ (s : State) (l : Nat) (ln : Lane), s.lanes[l]? = some ln →
    (∀ op, ln.port = none → hostAct (.issueDecode l op) s =
      .next { s with lanes := s.lanes.set l { ln with port := some op, resp := none } }) ∧
    (∀ bits, hostAct (.append l bits) s =
      .next { s with lanes := s.lanes.set l { ln with cursor := { ln.cursor with stream := ln.cursor.stream ++ bits } } }) ∧
    (∀ p, p ≤ ln.cursor.stream.length → hostAct (.seek l p) s =
      .next { s with lanes := s.lanes.set l { ln with cursor := { ln.cursor with pos := p } } }) ∧
    ∀ bits, hostAct (.attach l bits) s =
      .next { s with lanes := s.lanes.set l { ln with cursor := { stream := bits, pos := 0 } } }

/-- R71, R86, R101: `LOAD` is accepted only when `CB_OK = 0`, a decode only when `CB_OK = 1`; an operation that is
not accepted has no step. The stream symbols, as what `GETRUN` reads, go with it. -/
def Obligations.UnacceptedOperationHasNoStep : Prop :=
  (∀ (s : State) (len : Word) (es : List CodeEntry), s.cbOk = true →
    exec (.load len es) s = .fault .loadNotAccepted) ∧
  ∀ (s : State) (i : Instr) (l : Nat), s.cbOk = false → i.lane? = some l → l < s.lanes.length →
    exec i s = .fault .decodeNotAccepted

/-- R144: an operation that is not accepted, with no operation the block accepts and no act of the host left, is
stuck, not an error response; an idle block holds its state (60_exceptions section 11). -/
def Obligations.WaitWithoutEndIsStuck : Prop :=
  ∀ s : State, s.hostActs = [] →
    (s.cbOk = true → (∀ ln ∈ s.lanes, ln.port = none) →
      (s.loadPort ≠ none → step s = .fault .loadNotAccepted) ∧ (s.loadPort = none → step s = .next s)) ∧
    (s.cbOk = false → s.loadPort = none →
      ((∃ ln ∈ s.lanes, ln.port ≠ none) → step s = .fault .decodeNotAccepted) ∧
      ((∀ ln ∈ s.lanes, ln.port = none) → step s = .next s))

/-- R144: an operation that is not accepted waits. No step takes a table transaction off the load port while
`CB_OK = 1`, nor a command off a decode port while `CB_OK = 0`; a reset does not either (the model's reading,
log 10). -/
def Obligations.WaitingTransactionStays : Prop :=
  ∀ s t : State, step s = .next t →
    (∀ ws, s.cbOk = true → s.loadPort = some ws → t.loadPort = some ws) ∧
    ∀ (l : Nat) (ln : Lane) (op : BitVec 1), s.cbOk = false → s.lanes[l]? = some ln → ln.port = some op →
      ∃ ln', t.lanes[l]? = some ln' ∧ ln'.port = some op

/-! ### LOAD -/

/-- R77: if no check of R72 to R76 fires, `LOAD` ends `OK` and stores every entry verbatim and in order, `CB_LEN`,
the largest size as `S_MAX`, and `CB_OK = 1`; no cursor is touched. -/
def Obligations.LoadStoresTheTable : Prop :=
  ∀ (s : State) (len : Word) (es : List CodeEntry), s.cbOk = false →
    len.toNat = es.length → len ≠ 0 → len.toNat ≤ s.cfg.nMax → (∀ e ∈ es, LegalSize e) →
    (s.cfg.validatePrefixFree = true → PrefixFree es) →
    ∃ (m : BitVec 6) (t : State),
      (∃ e ∈ es, m.toNat = e.size.toNat) ∧ (∀ e ∈ es, e.size.toNat ≤ m.toNat) ∧
      t = { s with cb := es, cbLen := len, sMax := m, cbOk := true, ldResp := some .ok } ∧
      t.entries = es ∧ exec (.load len es) s = .next t

/-- R72 to R76: each check that fires makes `LOAD` end with `MalformedCodebook`, and nothing but the response is
written; what the store then holds is not said (R78). -/
def Obligations.LoadRejectsABadTable : Prop :=
  ∀ (s : State) (len : Word) (es : List CodeEntry), s.cbOk = false →
    (len.toNat ≠ es.length ∨ len = 0 ∨ s.cfg.nMax < len.toNat ∨
      (∃ e ∈ es, e.size = 0 ∨ 32 < e.size.toNat) ∨
      (s.cfg.validatePrefixFree = true ∧
        ∃ (i j : Nat) (a b : CodeEntry), i ≠ j ∧ es[i]? = some a ∧ es[j]? = some b ∧ BitPrefix a b)) →
    ∃ t, exec (.load len es) s = .next t ∧
      { t with cb := s.cb } = { s with ldResp := some (.error .malformedCodebook) }

/-- R78: a failed `LOAD` leaves `CB_OK = 0`, `CB_LEN = 0`, `S_MAX = 0` and no readable entry; no decode is accepted;
a further `LOAD`, of the same or another table, does what it would have done before, as far as anything of the store
can be read. The premise is the part of the invariant for a block without a codebook. -/
def Obligations.FailedLoadAdmitsAnother : Prop :=
  ∀ (s t : State) (len : Word) (es : List CodeEntry), s.EmptyOk → exec (.load len es) s = .next t →
    t.ldResp ≠ some .ok →
    t.ldResp = some (.error .malformedCodebook) ∧ t.cbOk = false ∧ t.cbLen = 0 ∧ t.sMax = 0 ∧ t.entries = [] ∧
    (∀ l i, l < t.lanes.length → IsDecode l i → exec i t = .fault .decodeNotAccepted) ∧
    ∀ len' es', (nextState (exec (.load len' es') t)).map (fun u => ({ u with cb := [] }, u.entries)) =
      (nextState (exec (.load len' es') s)).map (fun u => ({ u with cb := [] }, u.entries))

/-- R80 (a), (b), (e): the verdict on a table depends on the sizes and codewords alone. Reordering the entries, and
changing any `count`, `value` or bit of `bits` above `size - 1`, leaves the response as it was. -/
def Obligations.LoadVerdictReadsOnlyCodewords : Prop :=
  ∀ (s : State) (len : Word) (es mid es' : List CodeEntry), es.Perm mid →
    List.Forall₂ (fun a b : CodeEntry => a.size = b.size ∧
      a.bits.toNat % 2 ^ a.size.toNat = b.bits.toNat % 2 ^ b.size.toNat) mid es' →
    (nextState (exec (.load len es) s)).map State.ldResp = (nextState (exec (.load len es') s)).map State.ldResp

/-- The frame of `LOAD` (R77, R78): every lane, the parameters, the load port and the host's acts stay; on a
rejected table `CB_LEN` and `S_MAX` stay too (what the store then holds is not said). -/
def Obligations.LoadFrame : Prop :=
  ∀ (s t : State) (len : Word) (es : List CodeEntry), exec (.load len es) s = .next t →
    t.lanes = s.lanes ∧ t.cfg = s.cfg ∧ t.loadPort = s.loadPort ∧ t.hostActs = s.hostActs ∧
    (t.cbOk = false → t.cbLen = s.cbLen ∧ t.sMax = s.sMax)

/-- R16: while `CB_OK = 1` no operation writes `CB_LEN`, `S_MAX` or any entry, and no step does but a reset. -/
def Obligations.CodebookIsImmutable : Prop :=
  ∀ s t : State, s.cbOk = true →
    (∀ i, exec i s = .next t → t.cbOk = true ∧ t.cbLen = s.cbLen ∧ t.sMax = s.sMax ∧ t.cb = s.cb) ∧
    (step s = .next t → (t.cbOk = true ∧ t.cbLen = s.cbLen ∧ t.sMax = s.sMax ∧ t.cb = s.cb) ∨
      (t.cbOk = false ∧ ∃ rest, s.hostActs = .reset :: rest))

/-! ### GETRLV -/

/-- R90, R91: if the match set of the look-ahead is not empty, `GETRLV` selects the longest match, of the smallest
index, consumes exactly its `size` bits and returns its `count`, `value`, its index and `marker`. -/
def Obligations.GetrlvReportsTheSelectedEntry : Prop :=
  ∀ (s : State) (l : Nat) (ln : Lane) (L w i : Nat) (e : CodeEntry), s.cbOk = true → s.lanes[l]? = some ln →
    ln.cursor.peek s.sMax.toNat = (L, w) → Selected s.entries L w i e →
    (BitVec.ofNat 32 i).toNat = i ∧
    exec (.getrlv l) s = .next (s.decoded l ln (ln.cursor.pos + e.size.toNat)
      (.ok e.count e.value (BitVec.ofNat 32 i) (decide (e.count = 0 ∧ e.value = 0))))

/-- R92, R93, R94: if nothing matches, `GETRLV` ends with `BitstreamExhausted` when the look-ahead is shorter than
`S_MAX` and with `UnmatchedCodeword` otherwise; `err_pos` is the position before, and nothing is consumed. -/
def Obligations.GetrlvFailsWithoutConsuming : Prop :=
  ∀ (s : State) (l : Nat) (ln : Lane) (L w : Nat), s.cbOk = true → s.lanes[l]? = some ln →
    ln.cursor.peek s.sMax.toNat = (L, w) → NoMatch s.entries L w →
    exec (.getrlv l) s = .next (s.decoded l ln ln.cursor.pos
      (.error (if L < s.sMax.toNat then .bitstreamExhausted else .unmatchedCodeword) ln.cursor.pos))

/-! ### GETRUN -/

/-- R102: a failure of the lookup is propagated unchanged and nothing is consumed. -/
def Obligations.GetrunFailsAsTheMatcher : Prop :=
  ∀ (s : State) (l : Nat) (ln : Lane) (L w : Nat), s.cbOk = true → s.lanes[l]? = some ln →
    ln.cursor.peek s.sMax.toNat = (L, w) → NoMatch s.entries L w →
    exec (.getrun l) s = .next (s.decoded l ln ln.cursor.pos
      (.error (if L < s.sMax.toNat then .bitstreamExhausted else .unmatchedCodeword) ln.cursor.pos))

/-- R103: a run or marker entry (`value == 0`): `size` bits consumed, `value = 0`, `marker = 1` iff `count == 0`. -/
def Obligations.GetrunReportsRunsAndMarkers : Prop :=
  ∀ (s : State) (l : Nat) (ln : Lane) (L w i : Nat) (e : CodeEntry), s.cbOk = true → s.lanes[l]? = some ln →
    ln.cursor.peek s.sMax.toNat = (L, w) → Selected s.entries L w i e → e.value = 0 →
    exec (.getrun l) s = .next (s.decoded l ln (ln.cursor.pos + e.size.toNat)
      (.ok e.count 0 (BitVec.ofNat 32 i) (decide (e.count = 0))))

/-- R104: a value entry with its sign bit there: `size + 1` bits consumed, the sign bit is the stream bit right
after the codeword, `value` as stored for 0 and `neg_32` of it for 1, `marker = 0`. -/
def Obligations.GetrunSignsValues : Prop :=
  ∀ (s : State) (l : Nat) (ln : Lane) (L w i : Nat) (e : CodeEntry), s.cbOk = true → s.lanes[l]? = some ln →
    ln.cursor.peek s.sMax.toNat = (L, w) → Selected s.entries L w i e → e.value ≠ 0 →
    e.size.toNat + 1 ≤ ln.cursor.remaining →
    ∃ g, ln.cursor.stream[ln.cursor.pos + e.size.toNat]? = some g ∧
      exec (.getrun l) s = .next (s.decoded l ln (ln.cursor.pos + e.size.toNat + 1)
        (.ok e.count (if g then neg32 e.value else e.value) (BitVec.ofNat 32 i) false))

/-- R105: a value entry whose sign bit is missing: the stream ends exactly after the codeword, `GETRUN` ends with
`BitstreamExhausted` and consumes nothing. On a prefix-free codebook it succeeds once a bit has been appended. -/
def Obligations.GetrunWithoutSignBit : Prop :=
  ∀ (s : State) (l : Nat) (ln : Lane) (L w i : Nat) (e : CodeEntry), s.cbOk = true → s.lanes[l]? = some ln →
    ln.cursor.peek s.sMax.toNat = (L, w) → Selected s.entries L w i e → e.value ≠ 0 →
    ln.cursor.remaining < e.size.toNat + 1 →
    ln.cursor.remaining = e.size.toNat ∧
    exec (.getrun l) s = .next (s.decoded l ln ln.cursor.pos (.error .bitstreamExhausted ln.cursor.pos)) ∧
    (PrefixFree s.entries → ln.cursor.pos ≤ ln.cursor.stream.length → ∀ g more s', hostAct (.append l (g :: more)) s = .next s' →
      ∃ ln', s'.lanes[l]? = some ln' ∧
        exec (.getrun l) s' = .next (s'.decoded l ln' (ln.cursor.pos + e.size.toNat + 1)
          (.ok e.count (if g then neg32 e.value else e.value) (BitVec.ofNat 32 i) false)))

/-- R106: `neg_32(v) = (2^32 - v) mod 2^32`; it is `-v` for every `v` other than `-2^31`, its own negation. -/
def Obligations.NegationWrapsAtTheMinimum : Prop :=
  ∀ v : Word, (neg32 v).toNat = (2 ^ 32 - v.toNat) % 2 ^ 32 ∧
    (v.toInt ≠ -2 ^ 31 → (neg32 v).toInt = -v.toInt) ∧ (v.toInt = -2 ^ 31 → (neg32 v).toInt = -2 ^ 31)

/-- R110: `GETRUN` and `GETRLV` on the same state: the same failure of the lookup; the same response and position
for `value == 0`; for `value != 0`, `GETRLV` succeeds with the stored value at `p0 + size`, while `GETRUN` either
succeeds with the signed value one bit further, by the bit at which `GETRLV` stops, or is exhausted at `p0`. -/
def Obligations.GetrunAgainstGetrlv : Prop :=
  ∀ (s : State) (l : Nat) (ln : Lane) (L w : Nat), s.cbOk = true → s.lanes[l]? = some ln →
    ln.cursor.peek s.sMax.toNat = (L, w) →
    (NoMatch s.entries L w → exec (.getrun l) s = exec (.getrlv l) s) ∧
    ∀ i e, Selected s.entries L w i e →
      (e.value = 0 → exec (.getrun l) s = exec (.getrlv l) s) ∧
      (e.value ≠ 0 → ∃ t ln', exec (.getrlv l) s = .next t ∧ t.lanes[l]? = some ln' ∧
        ln'.cursor.pos = ln.cursor.pos + e.size.toNat ∧
        ln'.resp = some (.ok e.count e.value (BitVec.ofNat 32 i) false) ∧
        ((ln'.cursor.take 1 = none ∧ exec (.getrun l) s =
            .next (s.decoded l ln ln.cursor.pos (.error .bitstreamExhausted ln.cursor.pos))) ∨
          ∃ g c, ln'.cursor.take 1 = some (g, c) ∧ exec (.getrun l) s =
            .next (s.decoded l ln c.pos
              (.ok e.count (if g = 1 then neg32 e.value else e.value) (BitVec.ofNat 32 i) false))))

/-! ### The stream symbols -/

/-- `SYM.RUN` (R53 (a), R103): where the selected entry is a run entry and the symbol its codeword, the symbol runs:
`size` bits consumed, `count` and 0 reported, no marker. -/
def Obligations.SymRunCompletes : Prop :=
  ∀ (s : State) (l : Nat) (ln : Lane) (L w i : Nat) (e : CodeEntry), s.cbOk = true → s.lanes[l]? = some ln →
    ln.cursor.peek s.sMax.toNat = (L, w) → Selected s.entries L w i e → e.value = 0 → e.count ≠ 0 →
    exec (.symRun l (cwBits e)) s = .next (s.decoded l ln (ln.cursor.pos + e.size.toNat)
      (.ok e.count 0 (BitVec.ofNat 32 i) false))

/-- `SYM.MARKER` (R53 (b), R103): `size` bits consumed, count and value 0, the entry's index, `marker = 1`. -/
def Obligations.SymMarkerCompletes : Prop :=
  ∀ (s : State) (l : Nat) (ln : Lane) (L w i : Nat) (e : CodeEntry), s.cbOk = true → s.lanes[l]? = some ln →
    ln.cursor.peek s.sMax.toNat = (L, w) → Selected s.entries L w i e → e.value = 0 → e.count = 0 →
    exec (.symMarker l (cwBits e)) s = .next (s.decoded l ln (ln.cursor.pos + e.size.toNat)
      (.ok 0 0 (BitVec.ofNat 32 i) true))

/-- `SYM.VALUE` (R53 (c), R104): with the sign code `g` the stream bit after the codeword: `size + 1` bits consumed
and the value signed by `g`, for an entry with any `count`. -/
def Obligations.SymValueCompletes : Prop :=
  ∀ (s : State) (l : Nat) (ln : Lane) (L w i : Nat) (e : CodeEntry) (g : Bool), s.cbOk = true →
    s.lanes[l]? = some ln → ln.cursor.peek s.sMax.toNat = (L, w) → Selected s.entries L w i e → e.value ≠ 0 →
    ln.cursor.stream[ln.cursor.pos + e.size.toNat]? = some g →
    exec (.symValue l (cwBits e) g) s = .next (s.decoded l ln (ln.cursor.pos + e.size.toNat + 1)
      (.ok e.count (if g then neg32 e.value else e.value) (BitVec.ofNat 32 i) false))

/-- `GETRUN` runs the symbol that stands at the cursor (R53, R107), and leaves the cursor at the bits after it
(R112); and a symbol that runs at all is the one that stands there. -/
def Obligations.GetrunRunsTheSymbolAtTheCursor : Prop :=
  (∀ (s : State) (l : Nat) (ln : Lane) (i : Instr) (rest : List Bool), s.cbOk = true → s.lanes[l]? = some ln →
    decodeSymbol s.entries s.sMax.toNat l ln.cursor.rest = .ok (i, rest) →
    ∃ t ln', exec (.getrun l) s = .next t ∧ exec i s = .next t ∧ t.lanes[l]? = some ln' ∧ ln'.cursor.rest = rest) ∧
  ∀ (s t : State) (l : Nat) (i : Instr) (k : List Bool) (g : Bool),
    (i = .symRun l k ∨ i = .symMarker l k ∨ i = .symValue l k g) → exec i s = .next t →
    exec (.getrun l) s = .next t ∧
    ∃ ln rest, s.lanes[l]? = some ln ∧ decodeSymbol s.entries s.sMax.toNat l ln.cursor.rest = .ok (i, rest)

/-! ### All decodes -/

/-- The frame of `GETRLV`, `GETRUN` and the symbols: only the lane's position and its response change; the lane's
stream and port, every other lane, the codebook, the parameters, the load port and its response and the host's
acts stay (R18, R43, R122). -/
def Obligations.DecodeFrame : Prop :=
  ∀ (s t : State) (i : Instr) (l : Nat), i.lane? = some l → exec i s = .next t →
    ∃ (ln : Lane) (p : Nat) (r : Response), s.lanes[l]? = some ln ∧ t = s.decoded l ln p r ∧
      (∀ j, j ≠ l → t.lanes[j]? = s.lanes[j]?) ∧ t.cbOk = s.cbOk ∧ t.cbLen = s.cbLen ∧ t.sMax = s.sMax ∧
      t.cb = s.cb ∧ t.cfg = s.cfg ∧ t.loadPort = s.loadPort ∧ t.ldResp = s.ldResp ∧ t.hostActs = s.hostActs

/-- R122, R123, R120: an error saves nothing and changes nothing. A decode that ends in an error leaves the state as
it was but for the response, which carries the position; a `LOAD` that ends in an error leaves `CB_OK = 0` and the
state as it was but for the response and for the store, of which R78 says nothing then. -/
def Obligations.ErrorsChangeNothing : Prop :=
  (∀ (s t : State) (i : Instr) (l : Nat) (ln' : Lane) (k : ErrorKind) (p : Nat), IsDecode l i →
    exec i s = .next t → t.lanes[l]? = some ln' → ln'.resp = some (.error k p) →
    ∃ ln, s.lanes[l]? = some ln ∧ p = ln.cursor.pos ∧ ln'.cursor = ln.cursor ∧
      t = { s with lanes := s.lanes.set l { ln with resp := some (.error k p) } }) ∧
  ∀ (s t : State) (len : Word) (es : List CodeEntry) (k : ErrorKind), exec (.load len es) s = .next t →
    t.ldResp = some (.error k) → t.cbOk = false ∧ { t with cb := s.cb } = { s with ldResp := some (.error k) }

/-- R18, R108: a successful `GETRLV` advances the cursor by exactly the matched entry's `size`, a successful
`GETRUN` by `size` or, for a value entry, `size + 1`; a failed one by 0; `LOAD` touches no cursor. -/
def Obligations.ConsumptionIsExact : Prop :=
  (∀ (s t : State) (i : Instr) (l : Nat), IsDecode l i → exec i s = .next t →
    ∃ ln ln', s.lanes[l]? = some ln ∧ t.lanes[l]? = some ln' ∧
      ((∃ (idx : Nat) (e : CodeEntry) (count value : Word) (marker : Bool), s.entries[idx]? = some e ∧
          ln'.resp = some (.ok count value (BitVec.ofNat 32 idx) marker) ∧
          ln'.cursor.pos = ln.cursor.pos + e.size.toNat +
            (if i = .getrun l ∧ e.value ≠ 0 then 1 else 0)) ∨
        (∃ k, ln'.resp = some (.error k ln.cursor.pos) ∧ ln'.cursor.pos = ln.cursor.pos))) ∧
  ∀ (s t : State) (len : Word) (es : List CodeEntry), exec (.load len es) s = .next t → t.lanes = s.lanes

/-- R19, R112: no instruction moves a cursor back or past the end of its stream, or changes a stream. -/
def Obligations.PositionsOnlyMoveForward : Prop :=
  ∀ (s t : State) (i : Instr) (l : Nat) (ln : Lane), exec i s = .next t → s.lanes[l]? = some ln →
    ∃ ln', t.lanes[l]? = some ln' ∧ ln'.cursor.stream = ln.cursor.stream ∧ ln.cursor.pos ≤ ln'.cursor.pos ∧
      (ln.cursor.pos ≤ ln.cursor.stream.length → ln'.cursor.pos ≤ ln.cursor.stream.length)

/-- R36, R98, R109: a decode is a function of the position and of the bits ahead: on two blocks with the same
codebook, two lanes at the same position whose next `S_MAX` bits (`S_MAX + 1` for `GETRUN`) agree get the same
response and the same new position, whatever bits were consumed, whatever follows, whatever the other lanes hold. -/
def Obligations.DecodeReadsOnlyTheLookAhead : Prop :=
  ∀ (s₁ s₂ : State) (l₁ l₂ : Nat) (ln₁ ln₂ : Lane), s₁.lanes[l₁]? = some ln₁ → s₂.lanes[l₂]? = some ln₂ →
    s₁.cbOk = s₂.cbOk → s₁.entries = s₂.entries → s₁.sMax = s₂.sMax → ln₁.cursor.pos = ln₂.cursor.pos →
    (ln₁.cursor.rest.take s₁.sMax.toNat = ln₂.cursor.rest.take s₁.sMax.toNat →
      (nextState (exec (.getrlv l₁) s₁)).map (fun t => t.lanes[l₁]?.map fun ln => (ln.resp, ln.cursor.pos)) =
      (nextState (exec (.getrlv l₂) s₂)).map (fun t => t.lanes[l₂]?.map fun ln => (ln.resp, ln.cursor.pos))) ∧
    (ln₁.cursor.rest.take (s₁.sMax.toNat + 1) = ln₂.cursor.rest.take (s₁.sMax.toNat + 1) →
      (nextState (exec (.getrun l₁) s₁)).map (fun t => t.lanes[l₁]?.map fun ln => (ln.resp, ln.cursor.pos)) =
      (nextState (exec (.getrun l₂) s₂)).map (fun t => t.lanes[l₂]?.map fun ln => (ln.resp, ln.cursor.pos)))

/-- R96: for a prefix-free codebook the result, except `idx`, does not depend on the order of the entries. -/
def Obligations.EntryOrderChangesOnlyTheIndex : Prop :=
  ∀ (s : State) (cb' : List CodeEntry) (i : Instr) (l : Nat), IsDecode l i → s.cb.length = s.cbLen.toNat →
    PrefixFree s.cb → s.cb.Perm cb' →
    (nextState (exec i s)).map (fun t => t.lanes[l]?.map fun ln => (ln.resp.map Response.dropIdx, ln.cursor)) =
    (nextState (exec i { s with cb := cb' })).map
      (fun t => t.lanes[l]?.map fun ln => (ln.resp.map Response.dropIdx, ln.cursor))

/-- R52, R60 (a): bits of `bits` above `size - 1` never take part in anything: two codebooks that differ only there
give every decode the same outcome. -/
def Obligations.DontCareBitsAreIgnored : Prop :=
  ∀ (s : State) (cb' : List CodeEntry) (i : Instr) (l : Nat), i.lane? = some l →
    List.Forall₂ (fun a b : CodeEntry => a.size = b.size ∧ a.count = b.count ∧ a.value = b.value ∧
      a.bits.toNat % 2 ^ a.size.toNat = b.bits.toNat % 2 ^ b.size.toNat) s.cb cb' →
    exec i { s with cb := cb' } = onNext (fun t => { t with cb := cb' }) (exec i s)

/-- R43: operations on different lanes commute: either order leaves the same state. -/
def Obligations.LanesCommute : Prop :=
  ∀ (s sa t : State) (a b : Instr) (la lb : Nat), la ≠ lb → IsDecode la a → IsDecode lb b →
    exec a s = .next sa → exec b sa = .next t → ∃ sb, exec b s = .next sb ∧ exec a sb = .next t

/-- R129, R43: any interleaving of the operations of different lanes gives each lane the response and the position
it would have alone. -/
def Obligations.InterleavingLeavesEachLaneAlone : Prop :=
  ∀ (s t : State) (is : List Instr) (l : Nat), (∀ i ∈ is, ∃ j, IsDecode j i) → execAll is s = .next t →
    ∃ t', execAll (is.filter fun i => i.lane? == some l) s = .next t' ∧ t'.lanes[l]? = t.lanes[l]?

/-- R125: after a failed decode the same operation fails the same way; and after bits have been appended it gives
the result it would have given had they been there the first time. -/
def Obligations.RetryAfterFailure : Prop :=
  ∀ (s t : State) (i : Instr) (l : Nat) (ln' : Lane) (k : ErrorKind) (p : Nat), IsDecode l i →
    exec i s = .next t → t.lanes[l]? = some ln' → ln'.resp = some (.error k p) →
    exec i t = .next t ∧
    ∀ more s₁ t₁, hostAct (.append l more) s = .next s₁ → hostAct (.append l more) t = .next t₁ →
      exec i t₁ = exec i s₁

/-- R58: `ld_status` takes only the values 0 and 1, the `status` of a decode only 0, 2 and 3. -/
def Obligations.StatusCodesByOperation : Prop :=
  (∀ (s t : State) (len : Word) (es : List CodeEntry), exec (.load len es) s = .next t →
    ∃ r, t.ldResp = some r ∧ (r.status = 0 ∨ r.status = 1)) ∧
  ∀ (s t : State) (i : Instr) (l : Nat), i.lane? = some l → exec i s = .next t →
    ∃ ln r, t.lanes[l]? = some ln ∧ ln.resp = some r ∧ (r.status = 0 ∨ r.status = 2 ∨ r.status = 3)

/-- R115: every accepted operation ends, with a response. -/
def Obligations.EveryAcceptedOperationResponds : Prop :=
  (∀ (s : State) (len : Word) (es : List CodeEntry), s.cbOk = false →
    ∃ t r, exec (.load len es) s = .next t ∧ t.ldResp = some r) ∧
  ∀ (s : State) (i : Instr) (l : Nat), s.cbOk = true → l < s.lanes.length → IsDecode l i →
    ∃ t ln r, exec i s = .next t ∧ t.lanes[l]? = some ln ∧ ln.resp = some r

/-- R108, R104, R91 (95_test_vectors GP1 to GP3): on a prefix-free codebook the codeword of an entry, most
significant bit first, followed by any padding of at least one bit, decodes to that entry, with exactly its bits
consumed; the first padding bit is the sign of a value entry and the rest changes nothing. -/
def Obligations.EntryDecodesFromItsCodeword : Prop :=
  ∀ (s : State) (l : Nat) (ln : Lane) (i : Nat) (e : CodeEntry) (g : Bool) (more : List Bool), s.cbOk = true →
    s.lanes[l]? = some ln → PrefixFree s.entries → (∀ f ∈ s.entries, f.size.toNat ≤ s.sMax.toNat) →
    s.entries[i]? = some e → ln.cursor.rest = cwBits e ++ g :: more →
    exec (.getrlv l) s = .next (s.decoded l ln (ln.cursor.pos + e.size.toNat)
      (.ok e.count e.value (BitVec.ofNat 32 i) (decide (e.count = 0 ∧ e.value = 0)))) ∧
    exec (.getrun l) s = .next (s.decoded l ln
      (ln.cursor.pos + e.size.toNat + (if e.value = 0 then 0 else 1))
      (.ok e.count (if e.value ≠ 0 ∧ g = true then neg32 e.value else e.value) (BitVec.ofNat 32 i)
        (decide (e.count = 0 ∧ e.value = 0))))

/-! ### The cursor and the match -/

/-- R34, R33: `Peek(c, n)` is `k = min(n, Remaining(c))` and the next `k` bits, first stream bit most significant. -/
def Obligations.PeekReadsMostSignificantFirst : Prop :=
  ∀ (c : Cursor) (n k : Nat), k = min n (c.stream.length - c.pos) →
    c.remaining = c.stream.length - c.pos ∧
    c.peek n = (k, ∑ j ∈ Finset.range k, (c.stream.getD (c.pos + j) false).toNat * 2 ^ (k - 1 - j))

/-- R35: `Take(c, n)` with at least `n` bits left returns what `Peek` reads and moves the position by `n`. With fewer
than `n` bits left it has no step: that clause is no rule of the spec but the model's (log 16, DEDUCED from 93 U8). -/
def Obligations.TakeMovesThePosition : Prop :=
  ∀ (c : Cursor) (n : Nat),
    (n ≤ c.remaining → c.take n = some ((c.peek n).2, { stream := c.stream, pos := c.pos + n })) ∧
    (c.remaining < n → c.take n = none)

/-- R47: no instruction issues a `Take` of more bits than remain, in any state. -/
def Obligations.NoOverlongTake : Prop :=
  ∀ (i : Instr) (s : State), exec i s ≠ .fault .overlongTake

/-- R37, R54: an entry matches the look-ahead exactly when its codeword's bits stand at the cursor: the first stream
bit is bit `size - 1` of `bits`, the last is bit 0. -/
def Obligations.MatchIsBitByBit : Prop :=
  ∀ (c : Cursor) (n L w : Nat) (e : CodeEntry), c.peek n = (L, w) →
    (Matches L w e ↔ e.size.toNat ≤ L ∧
      ∀ j, j < e.size.toNat → c.stream[c.pos + j]? = some (e.bits.toNat.testBit (e.size.toNat - 1 - j)))

/-- R55: the prefix relation of entries is the relation of their codewords as bit strings, and the check of `LOAD`
accepts exactly the tables in which it holds between no two distinct indices. -/
def Obligations.PrefixRelationOnBits : Prop :=
  (∀ a b : CodeEntry, BitPrefix a b ↔ a.size.toNat ≤ b.size.toNat ∧
    ∀ j, j < a.size.toNat →
      a.bits.toNat.testBit (a.size.toNat - 1 - j) = b.bits.toNat.testBit (b.size.toNat - 1 - j)) ∧
  ∀ es : List CodeEntry, prefixFree es = true ↔
    ∀ (i j : Nat) (a b : CodeEntry), i ≠ j → es[i]? = some a → es[j]? = some b → ¬ cwBits a <+: cwBits b

/-- R89: on a prefix-free codebook at most one entry matches; and more bits only ever add a match where there was
none: an entry that matches the bits seen still matches with more of them, and is then still the only one. -/
def Obligations.PrefixFreeMatchIsUnique : Prop :=
  ∀ cb : List CodeEntry, PrefixFree cb →
    (∀ (L w i j : Nat) (a b : CodeEntry), cb[i]? = some a → cb[j]? = some b → Matches L w a → Matches L w b → i = j) ∧
    ∀ (n : Nat) (bits more : List Bool) (i j : Nat) (a b : CodeEntry), cb[i]? = some a → cb[j]? = some b →
      Matches (min n bits.length) (bitsVal (bits.take n)) a →
      Matches (min n (bits ++ more).length) (bitsVal ((bits ++ more).take n)) a ∧
      (Matches (min n (bits ++ more).length) (bitsVal ((bits ++ more).take n)) b → i = j)

/-- R92: the two readings of the exhaustion sentence differ only in the kind of error reported when fewer than
`S_MAX` bits remain, never in whether the lookup fails; with no bits left both say exhausted. -/
def Obligations.ExhaustReadingsDifferInKindOnly : Prop :=
  ∀ (cb : List CodeEntry) (sMax L w : Nat),
    (∀ i e, lookupIn .byLength cb sMax L w = .found i e ↔ lookupIn .byViability cb sMax L w = .found i e) ∧
    (lookupIn .byLength cb sMax L w ≠ lookupIn .byViability cb sMax L w → L < sMax ∧
      lookupIn .byLength cb sMax L w = .exhausted ∧ lookupIn .byViability cb sMax L w = .unmatched ∧
      ∀ e ∈ cb, L < e.size.toNat → cw e >>> (e.size.toNat - L) ≠ w) ∧
    (L = 0 → w = 0 → 0 < sMax → cb ≠ [] → (∀ e ∈ cb, LegalSize e) →
      lookupIn .byLength cb sMax L w = .exhausted ∧ lookupIn .byViability cb sMax L w = .exhausted)

/-- R53: every entry falls in exactly one of the three classes, by its data fields. -/
def Obligations.ClassesPartitionEntries : Prop :=
  ∀ e : CodeEntry, (classOf e = .run ↔ e.value = 0 ∧ 1 ≤ e.count.toNat) ∧
    (classOf e = .marker ↔ e.value = 0 ∧ e.count = 0) ∧ (classOf e = .value ↔ e.value ≠ 0)

/-! ### Encodings -/

/-- Words written out from the spec: both values of `op` (R57), as 8-bit words that stand for lane 0's decode port
(that placing is the model's: log 12, DESIGN CHOICE), the image of the source's toy table and the symbols `0`,
`11 0` and `11 1` of its example (95_test_vectors sections 1 and 2), a marker of table CBA, the codes of R58. -/
def Obligations.SpecWordsDecode : Prop :=
  decodeTableWord 8 0 = some (.getrlv 0) ∧ decodeTableWord 8 1 = some (.getrun 0) ∧
  (decodeLoad [0x00000002, 0x00000001, 0x00000000, 0x00000001, 0x00000000, 0x00000002, 0x00000003, 0x00000001,
    0x00000005]).toOption = some (.load 2 toyBook) ∧
  (decodeSymbol toyBook 2 0 [false]).toOption = some (.symRun 0 [false], []) ∧
  (decodeSymbol toyBook 2 0 [true, true, false]).toOption = some (.symValue 0 [true, true] false, []) ∧
  (decodeSymbol toyBook 2 0 [true, true, true, false]).toOption = some (.symValue 0 [true, true] true, [false]) ∧
  (decodeSymbol [{ size := 5, bits := 0x1E, count := 0, value := 0 }] 5 1 [true, true, true, true, false]).toOption =
    some (.symMarker 1 [true, true, true, true, false], []) ∧
  ErrorKind.malformedCodebook.code = 1 ∧ ErrorKind.bitstreamExhausted.code = 2 ∧
  ErrorKind.unmatchedCodeword.code = 3 ∧ LoadResponse.ok.status = 0

/-- Decode and encode agree for every instruction: each command at its port with every operand, and each symbol of
a codebook with legal sizes and no prefix collision, followed in its stream by any further bits. -/
def Obligations.DecodeEncodeAgree : Prop :=
  ∀ (nLanes : Nat) (cb : List CodeEntry) (i : Instr) (more : List Bool), PrefixFree cb →
    (∀ e ∈ cb, LegalSize e) → i.wellFormed nLanes = true → i.inBook cb →
    decode cb ((encode i).followedBy more) = .ok i

/-- R51: a table image has `1 + 4m` words, and no word of it is dropped. That a transaction of any other length does
not decode is no rule of the spec but the model's choice (log 14, DESIGN CHOICE, the treatment of 93 U11). -/
def Obligations.LoadImageKeepsEveryWord : Prop :=
  (∀ (ws : List Word) (i : Instr), decodeLoad ws = .ok i → encode i = .loadPort ws) ∧
  ∀ ws : List Word, (∃ i, decodeLoad ws = .ok i) ↔ ∃ m, ws.length = 1 + 4 * m

/-- A decoded symbol and the bits after it are the bits there were (R53, R61). -/
def Obligations.SymbolKeepsEveryBit : Prop :=
  ∀ (cb : List CodeEntry) (sMax l : Nat) (bits rest : List Bool) (i : Instr),
    decodeSymbol cb sMax l bits = .ok (i, rest) →
    ∃ front, encode i = .stream l front ∧ front ++ rest = bits

/-! ### The stream -/

/-- R31, R46: no step alters or removes a bit that is in a lane's stream; bits are only appended, unless the host
gives the lane a fresh cursor. -/
def Obligations.StreamOnlyGrows : Prop :=
  ∀ (s t : State) (l : Nat) (ln : Lane), step s = .next t → s.lanes[l]? = some ln →
    (∃ bits rest, s.hostActs = .attach l bits :: rest) ∨
    ∃ ln', t.lanes[l]? = some ln' ∧ ln.cursor.stream <+: ln'.cursor.stream
end

