-- ==== Sys2Proof/Laws/Bits.lean ====
section
/-! SUPPORT. Bit strings and codewords: the value of a bit string, its shifts, and the bits of `cw(e)`. -/

namespace Sys2Proof.Machine

theorem bitsVal_foldl (bs : List Bool) (a : Nat) :
    bs.foldl (fun acc b => 2 * acc + b.toNat) a = a * 2 ^ bs.length + bitsVal bs := by
  induction bs generalizing a with
  | nil => simp [bitsVal]
  | cons b bs ih =>
    simp only [List.foldl_cons, List.length_cons, bitsVal]
    rw [ih, ih (2 * 0 + b.toNat)]
    ring

@[simp] theorem bitsVal_nil : bitsVal [] = 0 := rfl

theorem bitsVal_cons (b : Bool) (bs : List Bool) : bitsVal (b :: bs) = b.toNat * 2 ^ bs.length + bitsVal bs := by
  simpa [bitsVal] using bitsVal_foldl bs (2 * 0 + b.toNat)

theorem bitsVal_append (as bs : List Bool) :
    bitsVal (as ++ bs) = bitsVal as * 2 ^ bs.length + bitsVal bs := by
  unfold bitsVal
  rw [List.foldl_append, bitsVal_foldl]
  rfl

theorem bitsVal_lt (bs : List Bool) : bitsVal bs < 2 ^ bs.length := by
  induction bs with
  | nil => simp
  | cons b bs ih =>
    rw [bitsVal_cons, List.length_cons, pow_succ]
    have : b.toNat ≤ 1 := Bool.toNat_le b
    nlinarith

/-- Shifting out all but the first `k` bits leaves the value of the first `k` bits. -/
theorem bitsVal_shift (bs : List Bool) (k : Nat) :
    bitsVal bs >>> (bs.length - k) = bitsVal (bs.take k) := by
  conv_lhs => rw [← List.take_append_drop k bs, bitsVal_append]
  rw [Nat.shiftRight_eq_div_pow]
  have hl : (bs.take k ++ bs.drop k).length - k = (bs.drop k).length := by
    simp
  rw [hl, Nat.add_comm, Nat.add_mul_div_right _ _ (by positivity), Nat.div_eq_of_lt (bitsVal_lt _), Nat.zero_add]

/-- A bit string is determined by its length and its value. -/
theorem bitsVal_inj {as bs : List Bool} (hl : as.length = bs.length) (hv : bitsVal as = bitsVal bs) : as = bs := by
  induction as generalizing bs with
  | nil => cases bs with
    | nil => rfl
    | cons b bs => simp at hl
  | cons a as ih => cases bs with
    | nil => simp at hl
    | cons b bs =>
      simp only [List.length_cons, Nat.add_right_cancel_iff] at hl
      rw [bitsVal_cons, bitsVal_cons, hl] at hv
      have h1 := bitsVal_lt as
      have h2 := bitsVal_lt bs
      rw [hl] at h1
      have hab : a = b ∧ bitsVal as = bitsVal bs := by
        cases a <;> cases b <;> first | (simp_all; done) | (simp_all; omega)
      rw [hab.1, ih hl hab.2]

/-- Bit `j` in stream order is bit `length - 1 - j` of the value. -/
theorem bitsVal_testBit (bs : List Bool) {j : Nat} (h : j < bs.length) :
    (bitsVal bs).testBit (bs.length - 1 - j) = bs[j] := by
  have ht : bs.take (j + 1) = bs.take j ++ [bs[j]] := List.take_succ_eq_append_getElem h
  have hs := bitsVal_shift bs (j + 1)
  rw [ht, bitsVal_append] at hs
  have h0 : (bitsVal bs >>> (bs.length - (j + 1))).testBit 0 = (bitsVal bs).testBit (bs.length - 1 - j) := by
    rw [Nat.testBit_shiftRight]
    congr 1
    omega
  rw [← h0, hs, Nat.testBit_zero]
  cases bs[j] <;> simp [bitsVal]

@[simp] theorem cwBits_length (e : CodeEntry) : (cwBits e).length = e.size.toNat := by simp [cwBits]

theorem cw_lt (e : CodeEntry) : cw e < 2 ^ e.size.toNat := Nat.mod_lt _ (by positivity)

theorem cwBits_getElem (e : CodeEntry) {j : Nat} (h : j < (cwBits e).length) :
    (cwBits e)[j] = (cw e).testBit (e.size.toNat - 1 - j) := by
  simp [cwBits]

/-- The bits of a codeword have the codeword as their value. -/
@[simp] theorem bitsVal_cwBits (e : CodeEntry) : bitsVal (cwBits e) = cw e := by
  apply Nat.eq_of_testBit_eq
  intro i
  by_cases hi : i < e.size.toNat
  · have hj : e.size.toNat - 1 - i < (cwBits e).length := by simp; omega
    have := bitsVal_testBit (cwBits e) hj
    rw [cwBits_getElem] at this
    simp only [cwBits_length] at this
    rwa [show e.size.toNat - 1 - (e.size.toNat - 1 - i) = i by omega] at this
  · have h1 := bitsVal_lt (cwBits e)
    rw [cwBits_length] at h1
    have hp : 2 ^ e.size.toNat ≤ 2 ^ i := Nat.pow_le_pow_right (by norm_num) (by omega)
    rw [Nat.testBit_lt_two_pow (lt_of_lt_of_le h1 hp), Nat.testBit_lt_two_pow (lt_of_lt_of_le (cw_lt e) hp)]

/-- Bit for bit, a codeword is the low bits of `bits`. -/
theorem cw_testBit (e : CodeEntry) {i : Nat} (h : i < e.size.toNat) : (cw e).testBit i = e.bits.toNat.testBit i := by
  simp [cw, Nat.testBit_mod_two_pow, h]

end Sys2Proof.Machine
end

