-- ==== Sys2Proof/Laws/Lookup.lean ====
section
/-! SUPPORT. What the match set, the selection and the lookup answer, in the propositions of Safety.lean. -/

namespace Sys2Proof.Machine

theorem entryMatches_iff (L w : Nat) (e : CodeEntry) : entryMatches L w e = true ↔ Matches L w e := by
  simp [entryMatches, pre, cw, Matches]

/-- On the value of a bit string, a match is a prefix. -/
theorem matches_iff_isPrefix (bs : List Bool) (e : CodeEntry) :
    Matches bs.length (bitsVal bs) e ↔ cwBits e <+: bs := by
  constructor
  · rintro ⟨hs, hv⟩
    rw [bitsVal_shift] at hv
    have : cwBits e = bs.take e.size.toNat :=
      bitsVal_inj (by simp [hs]) (by rw [bitsVal_cwBits, hv]; rfl)
    exact this ▸ List.take_prefix _ _
  · intro h
    have hl := h.length_le
    rw [cwBits_length] at hl
    refine ⟨hl, ?_⟩
    have ht : bs.take e.size.toNat = cwBits e := by
      have := List.prefix_iff_eq_take.1 h
      rw [cwBits_length] at this
      exact this.symm
    rw [bitsVal_shift, ht, bitsVal_cwBits]
    rfl

theorem mem_matchSet (cb : List CodeEntry) (L w i : Nat) (e : CodeEntry) :
    (e, i) ∈ matchSet cb L w ↔ cb[i]? = some e ∧ Matches L w e := by
  rw [matchSet, List.mem_filter, List.mem_zipIdx_iff_getElem?, entryMatches_iff]

theorem le_maxSize {es : List CodeEntry} {e : CodeEntry} (h : e ∈ es) : e.size.toNat ≤ maxSize es := by
  induction es with
  | nil => simp at h
  | cons a es ih =>
    have hm : maxSize (a :: es) = max a.size.toNat (maxSize es) := rfl
    rw [hm]
    rcases List.mem_cons.1 h with rfl | h
    · exact le_max_left _ _
    · exact (ih h).trans (le_max_right _ _)

theorem exists_maxSize {es : List CodeEntry} (h : es ≠ []) : ∃ e ∈ es, e.size.toNat = maxSize es := by
  induction es with
  | nil => exact absurd rfl h
  | cons a es ih =>
    have hm : maxSize (a :: es) = max a.size.toNat (maxSize es) := rfl
    rw [hm]
    by_cases hes : es = []
    · subst hes
      exact ⟨a, by simp, by simp [maxSize]⟩
    · obtain ⟨e, he, hv⟩ := ih hes
      rcases le_total a.size.toNat (maxSize es) with hle | hle
      · exact ⟨e, List.mem_cons_of_mem _ he, by rw [max_eq_right hle, hv]⟩
      · exact ⟨a, by simp, by rw [max_eq_left hle]⟩

/-- The indices of a match set rise. -/
theorem matchSet_pairwise (cb : List CodeEntry) (L w : Nat) :
    (matchSet cb L w).Pairwise fun p q => p.2 < q.2 := by
  apply List.Pairwise.filter
  rw [List.pairwise_iff_getElem]
  intro i j hi hj hij
  simpa using hij

theorem selectEntry_none_iff (cb : List CodeEntry) (L w : Nat) :
    selectEntry (matchSet cb L w) = none ↔ NoMatch cb L w := by
  constructor
  · intro h e he hm
    obtain ⟨i, hi⟩ := List.mem_iff_getElem?.1 he
    have hmem := (mem_matchSet cb L w i e).2 ⟨hi, hm⟩
    have hne : (matchSet cb L w).map Prod.fst ≠ [] := by
      intro h0
      have : (e : CodeEntry) ∈ (matchSet cb L w).map Prod.fst := List.mem_map.2 ⟨_, hmem, rfl⟩
      simp [h0] at this
    obtain ⟨f, hf, hv⟩ := exists_maxSize hne
    obtain ⟨p, hp, rfl⟩ := List.mem_map.1 hf
    have := List.find?_eq_none.1 h p hp
    simp [hv] at this
  · intro h
    have : matchSet cb L w = [] := by
      apply List.eq_nil_iff_forall_not_mem.2
      rintro ⟨e, i⟩ hm
      obtain ⟨hi, hmt⟩ := (mem_matchSet cb L w i e).1 hm
      exact h e (List.mem_of_getElem? hi) hmt
    rw [this]
    rfl

/-- The selected pair is the one of R90. -/
theorem selected_of_selectEntry {cb : List CodeEntry} {L w i : Nat} {e : CodeEntry}
    (h : selectEntry (matchSet cb L w) = some (e, i)) : Selected cb L w i e := by
  obtain ⟨hp, as, bs, hM, hno⟩ := List.find?_eq_some_iff_append.1 h
  have hsz : e.size.toNat = maxSize ((matchSet cb L w).map Prod.fst) := by simpa using hp
  have hmem : (e, i) ∈ matchSet cb L w := by rw [hM]; simp
  obtain ⟨hi, hm⟩ := (mem_matchSet cb L w i e).1 hmem
  refine ⟨hi, hm, fun j f hj hf => ⟨?_, fun heq => ?_⟩⟩
  · have := (mem_matchSet cb L w j f).2 ⟨hj, hf⟩
    exact hsz ▸ le_maxSize (List.mem_map.2 ⟨_, this, rfl⟩)
  · have hjm := (mem_matchSet cb L w j f).2 ⟨hj, hf⟩
    have hpw := matchSet_pairwise cb L w
    rw [hM] at hjm hpw
    rcases List.mem_append.1 hjm with ha | ha
    · have := hno _ ha
      simp [heq, hsz] at this
    · rcases List.mem_cons.1 ha with hb | hb
      · rw [Prod.mk.injEq] at hb
        omega
      · have := (List.pairwise_cons.1 (List.pairwise_append.1 hpw).2.1).1 _ hb
        exact le_of_lt this

/-- At most one index is selected. -/
theorem selected_unique {cb : List CodeEntry} {L w i j : Nat} {e f : CodeEntry}
    (h : Selected cb L w i e) (h' : Selected cb L w j f) : i = j ∧ e = f := by
  obtain ⟨hi, hm, hall⟩ := h
  obtain ⟨hj, hm', hall'⟩ := h'
  have h1 := hall j f hj hm'
  have h2 := hall' i e hi hm
  have hs : f.size.toNat = e.size.toNat := le_antisymm h1.1 h2.1
  have hij : i = j := le_antisymm (h1.2 hs) (h2.2 hs.symm)
  subst hij
  exact ⟨rfl, Option.some.inj (hi.symm.trans hj)⟩

theorem selectEntry_eq_some_iff (cb : List CodeEntry) (L w i : Nat) (e : CodeEntry) :
    selectEntry (matchSet cb L w) = some (e, i) ↔ Selected cb L w i e := by
  refine ⟨selected_of_selectEntry, fun h => ?_⟩
  cases hc : selectEntry (matchSet cb L w) with
  | none => exact absurd h.2.1 ((selectEntry_none_iff cb L w).1 hc e (List.mem_of_getElem? h.1))
  | some p =>
    obtain ⟨f, j⟩ := p
    obtain ⟨rfl, rfl⟩ := selected_unique h (selected_of_selectEntry hc)
    rfl

/-! ### The lookup on a look-ahead -/

theorem missKind_ne_found (pol cb sMax L w i e) : missKind pol cb sMax L w ≠ .found i e := by
  unfold missKind
  split
  · split
    · simp
    · split <;> simp
  · simp

theorem lookupIn_found_iff (pol cb sMax L w i e) :
    lookupIn pol cb sMax L w = .found i e ↔ Selected cb L w i e := by
  rw [← selectEntry_eq_some_iff]
  unfold lookupIn
  split
  · next f j h => simp [h, and_comm]
  · next h => simp [h, missKind_ne_found]

theorem lookupIn_of_noMatch (pol : Config.ExhaustPolicy) {cb : List CodeEntry} (sMax : Nat) {L w : Nat}
    (h : NoMatch cb L w) : lookupIn pol cb sMax L w = missKind pol cb sMax L w := by
  unfold lookupIn
  rw [(selectEntry_none_iff cb L w).2 h]

/-- A lookup finds an entry or there is none to find. -/
theorem selected_or_noMatch (cb : List CodeEntry) (L w : Nat) :
    (∃ i e, Selected cb L w i e) ∨ NoMatch cb L w := by
  cases h : selectEntry (matchSet cb L w) with
  | none => exact .inr ((selectEntry_none_iff cb L w).1 h)
  | some p => exact .inl ⟨p.2, p.1, selected_of_selectEntry h⟩

/-! ### The prefix relation -/

theorem bitPrefix_iff_isPrefix (a b : CodeEntry) : BitPrefix a b ↔ cwBits a <+: cwBits b := by
  rw [← matches_iff_isPrefix, cwBits_length, bitsVal_cwBits]
  exact and_congr_right fun _ => eq_comm

theorem collide_iff (x y : CodeEntry) : collide x y = true ↔ BitPrefix x y ∨ BitPrefix y x := by
  unfold collide isPrefixEntry
  split
  · next h =>
    rw [beq_iff_eq]
    refine ⟨fun he => .inl ⟨h, he⟩, ?_⟩
    rintro (⟨_, he⟩ | ⟨h', he⟩)
    · exact he
    · have hs : x.size.toNat = y.size.toNat := le_antisymm h h'
      simp only [hs, Nat.sub_self, Nat.shiftRight_zero] at he ⊢
      simp only [cw, hs] at he ⊢
      exact he.symm
  · next h =>
    rw [beq_iff_eq]
    refine ⟨fun he => .inr ⟨by omega, he⟩, ?_⟩
    rintro (⟨h', _⟩ | ⟨_, he⟩)
    · exact absurd h' h
    · exact he

/-- The check `LOAD` computes is the pairwise condition of R55 and R76. -/
theorem prefixFree_iff_pairwise (es : List CodeEntry) :
    prefixFree es = true ↔ es.Pairwise fun a b => ¬ BitPrefix a b ∧ ¬ BitPrefix b a := by
  induction es with
  | nil => simp [prefixFree]
  | cons e es ih =>
    have : ∀ f, (collide e f = false ↔ ¬ BitPrefix e f ∧ ¬ BitPrefix f e) := by
      intro f
      rw [← Bool.not_eq_true, collide_iff, not_or]
    simp [prefixFree, ih, this, -not_and]

theorem prefixFree_iff_forall (es : List CodeEntry) : prefixFree es = true ↔ PrefixFree es := by
  rw [prefixFree_iff_pairwise, List.pairwise_iff_getElem]
  constructor
  · intro h i j a b hij ha hb
    obtain ⟨hi, rfl⟩ := List.getElem?_eq_some_iff.1 ha
    obtain ⟨hj, rfl⟩ := List.getElem?_eq_some_iff.1 hb
    rcases lt_or_gt_of_ne hij with hlt | hlt
    · exact (h i j hi hj hlt).1
    · exact (h j i hj hi hlt).2
  · intro h i j hi hj hij
    exact ⟨h i j _ _ (by omega) (List.getElem?_eq_getElem hi) (List.getElem?_eq_getElem hj),
      h j i _ _ (by omega) (List.getElem?_eq_getElem hj) (List.getElem?_eq_getElem hi)⟩

end Sys2Proof.Machine
end

