-- ==== Sys2Proof/Laws/State.lean ====
section
/-! SUPPORT. One lemma per field per state update, so that no later proof unfolds a record update. -/

namespace Sys2Proof.Machine

/-! ### `State.setLane` -/

@[simp] theorem setLane_cbOk (s : State) (l ln) : (s.setLane l ln).cbOk = s.cbOk := rfl
@[simp] theorem setLane_cbLen (s : State) (l ln) : (s.setLane l ln).cbLen = s.cbLen := rfl
@[simp] theorem setLane_sMax (s : State) (l ln) : (s.setLane l ln).sMax = s.sMax := rfl
@[simp] theorem setLane_cb (s : State) (l ln) : (s.setLane l ln).cb = s.cb := rfl
@[simp] theorem setLane_lanes (s : State) (l ln) : (s.setLane l ln).lanes = s.lanes.set l ln := rfl
@[simp] theorem setLane_cfg (s : State) (l ln) : (s.setLane l ln).cfg = s.cfg := rfl
@[simp] theorem setLane_loadPort (s : State) (l ln) : (s.setLane l ln).loadPort = s.loadPort := rfl
@[simp] theorem setLane_ldResp (s : State) (l ln) : (s.setLane l ln).ldResp = s.ldResp := rfl
@[simp] theorem setLane_hostActs (s : State) (l ln) : (s.setLane l ln).hostActs = s.hostActs := rfl
@[simp] theorem setLane_entries (s : State) (l ln) : (s.setLane l ln).entries = s.entries := rfl
@[simp] theorem setLane_lookup (s : State) (l ln c) : (s.setLane l ln).lookup c = s.lookup c := rfl

/-! ### `State.decoded` -/

@[simp] theorem decoded_cbOk (s : State) (l ln p r) : (s.decoded l ln p r).cbOk = s.cbOk := rfl
@[simp] theorem decoded_cbLen (s : State) (l ln p r) : (s.decoded l ln p r).cbLen = s.cbLen := rfl
@[simp] theorem decoded_sMax (s : State) (l ln p r) : (s.decoded l ln p r).sMax = s.sMax := rfl
@[simp] theorem decoded_cb (s : State) (l ln p r) : (s.decoded l ln p r).cb = s.cb := rfl
@[simp] theorem decoded_cfg (s : State) (l ln p r) : (s.decoded l ln p r).cfg = s.cfg := rfl
@[simp] theorem decoded_loadPort (s : State) (l ln p r) : (s.decoded l ln p r).loadPort = s.loadPort := rfl
@[simp] theorem decoded_ldResp (s : State) (l ln p r) : (s.decoded l ln p r).ldResp = s.ldResp := rfl
@[simp] theorem decoded_hostActs (s : State) (l ln p r) : (s.decoded l ln p r).hostActs = s.hostActs := rfl
@[simp] theorem decoded_entries (s : State) (l ln p r) : (s.decoded l ln p r).entries = s.entries := rfl
@[simp] theorem decoded_lookup (s : State) (l ln p r c) : (s.decoded l ln p r).lookup c = s.lookup c := rfl
@[simp] theorem decoded_lanes (s : State) (l ln p r) :
    (s.decoded l ln p r).lanes =
      s.lanes.set l { ln with cursor := { ln.cursor with pos := p }, resp := some r } := rfl

/-! ### `State.accept` and `State.clearShared` -/

@[simp] theorem accept_cbOk (s : State) (len es) : (s.accept len es).cbOk = true := rfl
@[simp] theorem accept_cbLen (s : State) (len es) : (s.accept len es).cbLen = len := rfl
@[simp] theorem accept_sMax (s : State) (len es) : (s.accept len es).sMax = BitVec.ofNat 6 (maxSize es) := rfl
@[simp] theorem accept_cb (s : State) (len es) : (s.accept len es).cb = es := rfl
@[simp] theorem accept_lanes (s : State) (len es) : (s.accept len es).lanes = s.lanes := rfl
@[simp] theorem accept_cfg (s : State) (len es) : (s.accept len es).cfg = s.cfg := rfl
@[simp] theorem accept_loadPort (s : State) (len es) : (s.accept len es).loadPort = s.loadPort := rfl
@[simp] theorem accept_ldResp (s : State) (len es) : (s.accept len es).ldResp = some .ok := rfl
@[simp] theorem accept_hostActs (s : State) (len es) : (s.accept len es).hostActs = s.hostActs := rfl
@[simp] theorem clearShared_cbOk (s : State) : s.clearShared.cbOk = false := rfl
@[simp] theorem clearShared_cbLen (s : State) : s.clearShared.cbLen = 0 := rfl
@[simp] theorem clearShared_sMax (s : State) : s.clearShared.sMax = 0 := rfl
@[simp] theorem clearShared_cb (s : State) : s.clearShared.cb = [] := rfl
@[simp] theorem clearShared_lanes (s : State) : s.clearShared.lanes = s.lanes := rfl
@[simp] theorem clearShared_cfg (s : State) : s.clearShared.cfg = s.cfg := rfl
@[simp] theorem clearShared_loadPort (s : State) : s.clearShared.loadPort = s.loadPort := rfl
@[simp] theorem clearShared_ldResp (s : State) : s.clearShared.ldResp = s.ldResp := rfl
@[simp] theorem clearShared_hostActs (s : State) : s.clearShared.hostActs = s.hostActs := rfl

/-! ### The lanes -/

/-- A lane that was there before an update at `l` is there after it, unchanged or the new one. -/
theorem lanes_set_get (lanes : List Lane) (l j : Nat) (ln ln' : Lane) (h : lanes[j]? = some ln') :
    (lanes.set l ln)[j]? = some (if j = l then ln else ln') := by
  have hj : j < lanes.length := (List.getElem?_eq_some_iff.1 h).1
  rw [List.getElem?_set]
  split
  · next e => simp [← e, e ▸ hj]
  · next e => rw [if_neg (Ne.symm e), h]

theorem lanes_set_self (lanes : List Lane) (l : Nat) (ln ln' : Lane) (h : lanes[l]? = some ln') :
    (lanes.set l ln)[l]? = some ln := by
  simpa using lanes_set_get lanes l l ln ln' h

theorem lanes_set_ne (lanes : List Lane) {l j : Nat} (ln : Lane) (h : j ≠ l) :
    (lanes.set l ln)[j]? = lanes[j]? := by
  rw [List.getElem?_set, if_neg (Ne.symm h)]

end Sys2Proof.Machine
end

