-- ==== Sys2Proof/Laws/Ops.lean ====
section
/-! SUPPORT. One lemma per shared operation that says what it can do, for the provers to cite. -/

namespace Sys2Proof.Machine

/-! ### The cursor -/

@[simp] theorem rest_length (c : Cursor) : c.rest.length = c.remaining := by
  simp [Cursor.rest, Cursor.remaining]

theorem rest_getElem? (c : Cursor) (j : Nat) : c.rest[j]? = c.stream[c.pos + j]? := by
  simp [Cursor.rest]

theorem peek_fst (c : Cursor) (n : Nat) : (c.peek n).1 = min n c.remaining := rfl

theorem peek_snd (c : Cursor) (n : Nat) : (c.peek n).2 = bitsVal (c.rest.take (min n c.remaining)) := rfl

/-- What `Peek` reads is the value of the next bits, as many as it says. -/
theorem peek_cases {c : Cursor} {n L w : Nat} (h : c.peek n = (L, w)) :
    L = min n c.remaining ∧ w = bitsVal (c.rest.take L) ∧ (c.rest.take L).length = L := by
  have h1 : L = min n c.remaining := (congrArg Prod.fst h).symm
  have h2 : w = bitsVal (c.rest.take L) := by rw [h1]; exact (congrArg Prod.snd h).symm
  exact ⟨h1, h2, by simp [h1]⟩

/-- An entry matches what `Peek` reads when its codeword stands at the cursor and is not longer than asked. -/
theorem matches_peek_iff {c : Cursor} {n L w : Nat} (h : c.peek n = (L, w)) (e : CodeEntry) :
    Matches L w e ↔ e.size.toNat ≤ n ∧ cwBits e <+: c.rest := by
  obtain ⟨h1, h2, h3⟩ := peek_cases h
  have hm := matches_iff_isPrefix (c.rest.take L) e
  rw [h3, ← h2] at hm
  rw [hm, List.prefix_take_iff, cwBits_length, and_comm]
  constructor
  · rintro ⟨hs, hp⟩
    exact ⟨by omega, hp⟩
  · rintro ⟨hs, hp⟩
    have := hp.length_le
    rw [cwBits_length, rest_length] at this
    exact ⟨by omega, hp⟩

theorem matches_peek_le {c : Cursor} {n L w : Nat} (h : c.peek n = (L, w)) {e : CodeEntry} (hm : Matches L w e) :
    e.size.toNat ≤ c.remaining := by
  have := (peek_cases h).1
  have := hm.1
  omega

theorem take_of_le {c : Cursor} {n : Nat} (h : n ≤ c.remaining) :
    c.take n = some ((c.peek n).2, { c with pos := c.pos + n }) := by
  simp [Cursor.take, h]

theorem take_of_lt {c : Cursor} {n : Nat} (h : c.remaining < n) : c.take n = none := by
  simp [Cursor.take, h]

/-- The next bit as a number. -/
theorem peek_one {c : Cursor} {g : Bool} (h : c.stream[c.pos]? = some g) : (c.peek 1).2 = g.toNat := by
  have hr : c.rest[0]? = some g := by simpa [rest_getElem?] using h
  have hl : 1 ≤ c.remaining := by
    have := (List.getElem?_eq_some_iff.1 hr).1
    rwa [rest_length] at this
  rw [peek_snd, Nat.min_eq_left hl]
  cases hc : c.rest with
  | nil => simp [hc] at hr
  | cons b bs =>
    simp only [hc, List.getElem?_cons_zero, Option.some.injEq] at hr
    simp [hr, bitsVal]

/-- Bits that remain are there to read. -/
theorem exists_bit {c : Cursor} {n : Nat} (h : n < c.remaining) : ∃ g, c.stream[c.pos + n]? = some g := by
  have : c.pos + n < c.stream.length := by
    unfold Cursor.remaining at h
    omega
  exact ⟨_, List.getElem?_eq_getElem this⟩

/-! ### Lookup, acceptance, and the two ways a decode ends -/

theorem lookup_found_iff (s : State) (c : Cursor) (i : Nat) (e : CodeEntry) :
    s.lookup c = .found i e ↔ Selected s.entries (c.peek s.sMax.toNat).1 (c.peek s.sMax.toNat).2 i e :=
  lookupIn_found_iff ..

/-- A lookup that finds nothing is exhausted below `S_MAX` bits and unmatched from there on. -/
theorem lookup_of_noMatch {s : State} {c : Cursor} {L w : Nat} (h : c.peek s.sMax.toNat = (L, w))
    (hn : NoMatch s.entries L w) :
    s.lookup c = if L < s.sMax.toNat then .exhausted else .unmatched := by
  unfold State.lookup
  rw [h, lookupIn_of_noMatch _ _ hn]
  rfl

/-- A found entry lies within the bits that remain. -/
theorem lookup_found_le {s : State} {c : Cursor} {i : Nat} {e : CodeEntry} (h : s.lookup c = .found i e) :
    e.size.toNat ≤ c.remaining :=
  matches_peek_le (c := c) (n := s.sMax.toNat) rfl ((lookup_found_iff s c i e).1 h).2.1

theorem acceptDecode_of_open {s : State} {l : Nat} {ln : Lane} (h : s.cbOk = true) (hl : s.lanes[l]? = some ln)
    (k : Lane → Host.Outcome State Fault Refusal) : acceptDecode l s k = k ln := by
  simp [acceptDecode, hl, h]

/-- A decode that answers a next state was accepted. -/
theorem acceptDecode_next {s t : State} {l : Nat} {k : Lane → Host.Outcome State Fault Refusal}
    (h : acceptDecode l s k = .next t) : s.cbOk = true ∧ ∃ ln, s.lanes[l]? = some ln ∧ k ln = .next t := by
  unfold acceptDecode at h
  split at h
  · cases h
  · next ln hl =>
    split at h
    · next hc => exact ⟨hc, ln, hl, h⟩
    · cases h

theorem raiseDecode_eq (l : Nat) (ln : Lane) (k : ErrorKind) (s : State) :
    raiseDecode l ln k s = .next (s.decoded l ln ln.cursor.pos (.error k ln.cursor.pos)) := rfl

theorem takeEntry_of_le {ln : Lane} {e : CodeEntry} (h : e.size.toNat ≤ ln.cursor.remaining) (l i : Nat) (s : State) :
    takeEntry l ln i e s = .next (s.decoded l ln (ln.cursor.pos + e.size.toNat)
      (.ok e.count e.value (BitVec.ofNat 32 i) (markerOf e))) := by
  simp only [takeEntry, take_of_le h]
  rfl

theorem takeSigned_of_missing {ln : Lane} {e : CodeEntry} (h : ln.cursor.remaining < e.size.toNat + 1) (l i : Nat)
    (s : State) :
    takeSigned l ln i e s =
      .next (s.decoded l ln ln.cursor.pos (.error .bitstreamExhausted ln.cursor.pos)) := by
  simp only [takeSigned, if_pos h]
  rfl

theorem takeSigned_of_bit {ln : Lane} {e : CodeEntry} {g : Bool}
    (hg : ln.cursor.stream[ln.cursor.pos + e.size.toNat]? = some g) (l i : Nat) (s : State) :
    takeSigned l ln i e s = .next (s.decoded l ln (ln.cursor.pos + e.size.toNat + 1)
      (.ok e.count (signedValue e.value g) (BitVec.ofNat 32 i) false)) := by
  have hlt := (List.getElem?_eq_some_iff.1 hg).1
  have hr : e.size.toNat + 1 ≤ ln.cursor.remaining := by unfold Cursor.remaining; omega
  have hr' : 1 ≤ ({ ln.cursor with pos := ln.cursor.pos + e.size.toNat } : Cursor).remaining := by
    unfold Cursor.remaining at hr ⊢
    simp only
    omega
  simp only [takeSigned, if_neg (Nat.not_lt.2 hr), take_of_le (Nat.le_of_succ_le hr), take_of_le hr']
  rw [peek_one (c := { ln.cursor with pos := ln.cursor.pos + e.size.toNat }) (g := g) hg]
  cases g <;> rfl

/-- A decode that found entry `e` at index `i` and reports it as `GETRUN` does: the two ways it can end. -/
theorem takeSigned_cases (l : Nat) (ln : Lane) (i : Nat) (e : CodeEntry) (s : State) :
    (ln.cursor.remaining < e.size.toNat + 1 ∧ takeSigned l ln i e s =
      .next (s.decoded l ln ln.cursor.pos (.error .bitstreamExhausted ln.cursor.pos))) ∨
    ∃ g, ln.cursor.stream[ln.cursor.pos + e.size.toNat]? = some g ∧ takeSigned l ln i e s =
      .next (s.decoded l ln (ln.cursor.pos + e.size.toNat + 1)
        (.ok e.count (signedValue e.value g) (BitVec.ofNat 32 i) false)) := by
  by_cases h : ln.cursor.remaining < e.size.toNat + 1
  · exact .inl ⟨h, takeSigned_of_missing h l i s⟩
  · obtain ⟨g, hg⟩ := exists_bit (c := ln.cursor) (n := e.size.toNat) (by omega)
    exact .inr ⟨g, hg, takeSigned_of_bit hg l i s⟩

/-- An index of the codebook fits the 32 bits of `idx`. -/
theorem entries_index_lt {s : State} {i : Nat} {e : CodeEntry} (h : s.entries[i]? = some e) : i < 2 ^ 32 := by
  have h1 := (List.getElem?_eq_some_iff.1 h).1
  have h2 : s.entries.length ≤ s.cbLen.toNat := by simp [State.entries]
  have h3 := s.cbLen.isLt
  omega

/-! ### The meanings, one equation each on an accepted decode -/

/-- `GETRLV` on an open lane, by its lookup. -/
theorem execGetrlv_open {s : State} {l : Nat} {ln : Lane} (h : s.cbOk = true) (hl : s.lanes[l]? = some ln) :
    execGetrlv l s = match s.lookup ln.cursor with
      | .exhausted => .next (s.decoded l ln ln.cursor.pos (.error .bitstreamExhausted ln.cursor.pos))
      | .unmatched => .next (s.decoded l ln ln.cursor.pos (.error .unmatchedCodeword ln.cursor.pos))
      | .found i e => .next (s.decoded l ln (ln.cursor.pos + e.size.toNat)
          (.ok e.count e.value (BitVec.ofNat 32 i) (markerOf e))) := by
  unfold execGetrlv
  rw [acceptDecode_of_open h hl]
  cases hx : s.lookup ln.cursor with
  | exhausted => rfl
  | unmatched => rfl
  | found i e => simp only [takeEntry_of_le (lookup_found_le hx)]

/-- `GETRUN` on an open lane, by its lookup. -/
theorem execGetrun_open {s : State} {l : Nat} {ln : Lane} (h : s.cbOk = true) (hl : s.lanes[l]? = some ln) :
    execGetrun l s = match s.lookup ln.cursor with
      | .exhausted => .next (s.decoded l ln ln.cursor.pos (.error .bitstreamExhausted ln.cursor.pos))
      | .unmatched => .next (s.decoded l ln ln.cursor.pos (.error .unmatchedCodeword ln.cursor.pos))
      | .found i e => if e.value = 0 then .next (s.decoded l ln (ln.cursor.pos + e.size.toNat)
          (.ok e.count e.value (BitVec.ofNat 32 i) (markerOf e))) else takeSigned l ln i e s := by
  unfold execGetrun
  rw [acceptDecode_of_open h hl]
  cases hx : s.lookup ln.cursor with
  | exhausted => rfl
  | unmatched => rfl
  | found i e => simp only [takeEntry_of_le (lookup_found_le hx)]

/-- A symbol that answers a next state stood at the cursor. -/
theorem atSymbol_next {s t : State} {l : Nat} {cls : SymClass} {k : List Bool}
    {go : Lane → Nat → CodeEntry → Host.Outcome State Fault Refusal} (h : atSymbol l cls k s go = .next t) :
    s.cbOk = true ∧ ∃ ln i e, s.lanes[l]? = some ln ∧ s.lookup ln.cursor = .found i e ∧ classOf e = cls ∧
      cwBits e = k ∧ go ln i e = .next t := by
  obtain ⟨hc, ln, hl, hk⟩ := acceptDecode_next h
  refine ⟨hc, ln, ?_⟩
  split at hk
  · next i e hx =>
    split at hk
    · next hce => exact ⟨i, e, hl, hx, hce.1, hce.2, hk⟩
    · cases hk
  · cases hk
  · cases hk

theorem atSymbol_of_found {s : State} {l : Nat} {ln : Lane} {cls : SymClass} {k : List Bool} {i : Nat} {e : CodeEntry}
    (h : s.cbOk = true) (hl : s.lanes[l]? = some ln) (hx : s.lookup ln.cursor = .found i e) (hc : classOf e = cls)
    (hk : cwBits e = k) (go : Lane → Nat → CodeEntry → Host.Outcome State Fault Refusal) :
    atSymbol l cls k s go = go ln i e := by
  unfold atSymbol
  rw [acceptDecode_of_open h hl]
  simp [hx, hc, hk]

/-! ### LOAD -/

theorem sizeOk_iff (e : CodeEntry) : sizeOk e = true ↔ LegalSize e := by
  rw [sizeOk, Bool.and_eq_true, decide_eq_true_iff, decide_eq_true_iff]
  rfl

theorem tableOk_iff (p : Config.Params) (len : Word) (es : List CodeEntry) :
    tableOk p len es = true ↔ len.toNat = es.length ∧ len ≠ 0 ∧ len.toNat ≤ p.nMax ∧ (∀ e ∈ es, LegalSize e) ∧
      (p.validatePrefixFree = true → PrefixFree es) := by
  simp only [tableOk, Bool.and_eq_true, Bool.or_eq_true, Bool.not_eq_true', prefixFree_iff_forall, beq_iff_eq,
    bne_iff_ne, decide_eq_true_eq, List.all_eq_true, sizeOk_iff, and_assoc]
  have : ∀ P : Prop, (p.validatePrefixFree = false ∨ P) ↔ (p.validatePrefixFree = true → P) := by
    intro P
    cases p.validatePrefixFree <;> simp
  rw [this]

/-- What `LOAD` can answer: not accepted, the table stored, or the table rejected. -/
theorem execLoad_cases (len : Word) (es : List CodeEntry) (s : State) :
    (s.cbOk = true ∧ execLoad len es s = .fault .loadNotAccepted) ∨
    (s.cbOk = false ∧ tableOk s.cfg len es = true ∧ execLoad len es s = .next (s.accept len es)) ∨
    (s.cbOk = false ∧ tableOk s.cfg len es = false ∧
      execLoad len es s = .next { s with ldResp := some (.error .malformedCodebook) }) := by
  unfold execLoad
  cases hc : s.cbOk <;> cases tableOk s.cfg len es <;> simp [raiseMalformed, hc]

/-! ### The canonical form is kept -/

theorem memory_wf_iff (s : State) : Memory.wf s = true ↔ s.cb.length = s.cbLen.toNat ∧
    ∀ ln ∈ s.lanes, ln.cursor.pos ≤ ln.cursor.stream.length := by
  simp [Memory.wf]

theorem reset_memory_wf (p : Config.Params) (n : Nat) : Memory.wf (State.resetWith p n) = true := by
  rw [memory_wf_iff]
  refine ⟨rfl, fun ln h => ?_⟩
  rw [(List.mem_replicate.1 h).2]
  exact Nat.le_refl _

theorem clearShared_memory_wf {s : State} (h : Memory.wf s = true) : Memory.wf s.clearShared = true :=
  (memory_wf_iff _).2 ⟨rfl, ((memory_wf_iff s).1 h).2⟩

theorem accept_memory_wf {s : State} {len : Word} {es : List CodeEntry} (h : Memory.wf s = true)
    (hl : es.length = len.toNat) : Memory.wf (s.accept len es) = true :=
  (memory_wf_iff _).2 ⟨hl, ((memory_wf_iff s).1 h).2⟩

/-- A lane whose cursor stands within its stream keeps the form. -/
theorem setLane_memory_wf {s : State} {l : Nat} {ln : Lane} (h : Memory.wf s = true)
    (hl : ln.cursor.pos ≤ ln.cursor.stream.length) : Memory.wf (s.setLane l ln) = true := by
  obtain ⟨h1, h2⟩ := (memory_wf_iff s).1 h
  refine (memory_wf_iff _).2 ⟨h1, fun x hx => ?_⟩
  rcases List.mem_or_eq_of_mem_set hx with hx | rfl
  · exact h2 x hx
  · exact hl

/-- `Take` keeps the cursor within its stream. -/
theorem take_within {c c' : Cursor} {n w : Nat} (hc : c.pos ≤ c.stream.length) (h : c.take n = some (w, c')) :
    c'.pos ≤ c'.stream.length := by
  unfold Cursor.take at h
  split at h
  · next hn =>
    obtain ⟨-, rfl⟩ := Prod.mk.inj (Option.some.inj h)
    unfold Cursor.remaining at hn
    simp only
    omega
  · cases h

end Sys2Proof.Machine
end

