-- ==== Sys2Proof/Laws/Exec.lean ====
section
/-! SUPPORT. What one instruction can do: acceptance, the lookup a selection gives, and the ways a decode ends. -/

namespace Sys2Proof.Machine

theorem isDecode_lane {l : Nat} {i : Instr} (h : IsDecode l i) : i.lane? = some l := by
  cases h <;> rfl

theorem lane_eq_none_iff (i : Instr) : i.lane? = none ↔ ∃ len es, i = .load len es := by
  cases i <;> simp [Instr.lane?]

/-- The lookup finds what R90 selects. -/
theorem lookup_of_selected {s : State} {c : Cursor} {L w i : Nat} {e : CodeEntry} (hp : c.peek s.sMax.toNat = (L, w))
    (h : Selected s.entries L w i e) : s.lookup c = .found i e := by
  rw [lookup_found_iff, hp]
  exact h

/-- On a prefix-free codebook the entry whose codeword stands at the cursor is the selected one. -/
theorem selected_of_prefixFree {cb : List CodeEntry} (hpf : PrefixFree cb) {c : Cursor} {n i : Nat} {e : CodeEntry}
    (hi : cb[i]? = some e) (hn : e.size.toNat ≤ n) (hp : cwBits e <+: c.rest) :
    Selected cb (c.peek n).1 (c.peek n).2 i e := by
  refine ⟨hi, (matches_peek_iff (c := c) (n := n) rfl e).2 ⟨hn, hp⟩, fun j f hj hf => ?_⟩
  have hq := ((matches_peek_iff (c := c) (n := n) rfl f).1 hf).2
  by_cases hij : i = j
  · subst hij
    rw [hi] at hj
    cases hj
    exact ⟨le_refl _, fun _ => le_refl _⟩
  · exfalso
    rcases List.prefix_or_prefix_of_prefix hp hq with h | h
    · exact hpf i j e f hij hi hj ((bitPrefix_iff_isPrefix _ _).2 h)
    · exact hpf j i f e (Ne.symm hij) hj hi ((bitPrefix_iff_isPrefix _ _).2 h)

theorem markerOf_eq (e : CodeEntry) : markerOf e = decide (e.count = 0 ∧ e.value = 0) := by
  rw [Bool.eq_iff_iff]
  simp [markerOf]

theorem classOf_of_value {e : CodeEntry} (h : e.value ≠ 0) : classOf e = .value := by
  unfold classOf
  rw [if_pos h]

theorem classOf_of_run {e : CodeEntry} (h : e.value = 0) (h' : e.count ≠ 0) : classOf e = .run := by
  unfold classOf
  rw [if_neg (not_not.2 h), if_neg h']

theorem classOf_of_marker {e : CodeEntry} (h : e.value = 0) (h' : e.count = 0) : classOf e = .marker := by
  unfold classOf
  rw [if_neg (not_not.2 h), if_pos h']

/-- Only a value entry has a value. -/
theorem value_eq_zero_of_classOf {e : CodeEntry} (h : classOf e ≠ .value) : e.value = 0 :=
  by_contra fun hv => h (classOf_of_value hv)

theorem value_ne_zero_of_classOf {e : CodeEntry} (h : classOf e = .value) : e.value ≠ 0 := by
  intro hv
  by_cases hc : e.count = 0
  · rw [classOf_of_marker hv hc] at h
    cases h
  · rw [classOf_of_run hv hc] at h
    cases h

/-- A decode or symbol on lane `l` that answers a next state was accepted, and ended in one of three ways: an error
at the position it started from, an entry reported as stored, or (never under `GETRLV`) a value entry with its
sign bit. -/
theorem exec_lane_next {s t : State} {i : Instr} {l : Nat} (hl : i.lane? = some l) (h : exec i s = .next t) :
    s.cbOk = true ∧ ∃ ln, s.lanes[l]? = some ln ∧
      ((∃ k, k ≠ .malformedCodebook ∧ t = s.decoded l ln ln.cursor.pos (.error k ln.cursor.pos)) ∨
      ∃ idx e, s.lookup ln.cursor = .found idx e ∧
        (((e.value = 0 ∨ i = .getrlv l) ∧ t = s.decoded l ln (ln.cursor.pos + e.size.toNat)
            (.ok e.count e.value (BitVec.ofNat 32 idx) (markerOf e))) ∨
        ∃ g, ln.cursor.stream[ln.cursor.pos + e.size.toNat]? = some g ∧ e.value ≠ 0 ∧ i ≠ .getrlv l ∧
          t = s.decoded l ln (ln.cursor.pos + e.size.toNat + 1)
            (.ok e.count (signedValue e.value g) (BitVec.ofNat 32 idx) false))) := by
  cases i with
  | load => cases hl
  | getrlv l' =>
    obtain rfl : l' = l := Option.some.inj hl
    obtain ⟨hc, ln, hln, -⟩ := acceptDecode_next h
    refine ⟨hc, ln, hln, ?_⟩
    change execGetrlv l' s = _ at h
    rw [execGetrlv_open hc hln] at h
    cases hx : s.lookup ln.cursor with
    | exhausted => rw [hx] at h; cases h; exact .inl ⟨_, by simp, rfl⟩
    | unmatched => rw [hx] at h; cases h; exact .inl ⟨_, by simp, rfl⟩
    | found idx e => rw [hx] at h; cases h; exact .inr ⟨idx, e, rfl, .inl ⟨.inr rfl, rfl⟩⟩
  | getrun l' =>
    obtain rfl : l' = l := Option.some.inj hl
    obtain ⟨hc, ln, hln, -⟩ := acceptDecode_next h
    refine ⟨hc, ln, hln, ?_⟩
    change execGetrun l' s = _ at h
    rw [execGetrun_open hc hln] at h
    cases hx : s.lookup ln.cursor with
    | exhausted => rw [hx] at h; cases h; exact .inl ⟨_, by simp, rfl⟩
    | unmatched => rw [hx] at h; cases h; exact .inl ⟨_, by simp, rfl⟩
    | found idx e =>
      rw [hx] at h
      simp only at h
      split at h
      · next hv => cases h; exact .inr ⟨idx, e, rfl, .inl ⟨.inl hv, rfl⟩⟩
      · next hv =>
        rcases takeSigned_cases l' ln idx e s with ⟨-, h'⟩ | ⟨g, hg, h'⟩
        · rw [h'] at h; cases h; exact .inl ⟨_, by simp, rfl⟩
        · rw [h'] at h; cases h; exact .inr ⟨idx, e, rfl, .inr ⟨g, hg, hv, by simp, rfl⟩⟩
  | symRun l' k =>
    obtain rfl : l' = l := Option.some.inj hl
    obtain ⟨hc, ln, idx, e, hln, hx, hcl, -, hgo⟩ := atSymbol_next h
    rw [takeEntry_of_le (lookup_found_le hx)] at hgo
    cases hgo
    exact ⟨hc, ln, hln, .inr ⟨idx, e, hx, .inl ⟨.inl (value_eq_zero_of_classOf (by simp [hcl])), rfl⟩⟩⟩
  | symMarker l' k =>
    obtain rfl : l' = l := Option.some.inj hl
    obtain ⟨hc, ln, idx, e, hln, hx, hcl, -, hgo⟩ := atSymbol_next h
    rw [takeEntry_of_le (lookup_found_le hx)] at hgo
    cases hgo
    exact ⟨hc, ln, hln, .inr ⟨idx, e, hx, .inl ⟨.inl (value_eq_zero_of_classOf (by simp [hcl])), rfl⟩⟩⟩
  | symValue l' k g =>
    obtain rfl : l' = l := Option.some.inj hl
    obtain ⟨hc, ln, idx, e, hln, hx, hcl, -, hgo⟩ := atSymbol_next h
    split at hgo
    · next hg =>
      rw [rest_getElem?] at hg
      rw [takeSigned_of_bit hg] at hgo
      cases hgo
      exact ⟨hc, ln, hln, .inr ⟨idx, e, hx, .inr ⟨g, hg, value_ne_zero_of_classOf hcl, by simp, rfl⟩⟩⟩
    · cases hgo

/-- A decode command reads only acceptance, the codebook, `S_MAX` and its own lane: where those agree it does the
same to the lane. -/
theorem decode_transfer {s s' t : State} {i : Instr} {l : Nat} (hi : IsDecode l i) (h : exec i s = .next t)
    (hc : s'.cbOk = s.cbOk) (he : s'.entries = s.entries) (hs : s'.sMax = s.sMax)
    (hl : s'.lanes[l]? = s.lanes[l]?) :
    ∃ ln p r, s.lanes[l]? = some ln ∧ t = s.decoded l ln p r ∧ exec i s' = .next (s'.decoded l ln p r) := by
  obtain ⟨hcb, ln, hln, -⟩ := exec_lane_next (isDecode_lane hi) h
  have hcb' : s'.cbOk = true := hc.trans hcb
  have hln' := hl.trans hln
  have hlk : s'.lookup ln.cursor = s.lookup ln.cursor := by
    unfold State.lookup
    rw [he, hs]
  cases hi with
  | getrlv =>
    change execGetrlv l s = _ at h
    show ∃ ln p r, _ ∧ _ ∧ execGetrlv l s' = _
    rw [execGetrlv_open hcb hln] at h
    rw [execGetrlv_open hcb' hln', hlk]
    cases hx : s.lookup ln.cursor <;> rw [hx] at h <;> cases h <;> exact ⟨ln, _, _, hln, rfl, rfl⟩
  | getrun =>
    change execGetrun l s = _ at h
    show ∃ ln p r, _ ∧ _ ∧ execGetrun l s' = _
    rw [execGetrun_open hcb hln] at h
    rw [execGetrun_open hcb' hln', hlk]
    cases hx : s.lookup ln.cursor with
    | exhausted => rw [hx] at h; cases h; exact ⟨ln, _, _, hln, rfl, rfl⟩
    | unmatched => rw [hx] at h; cases h; exact ⟨ln, _, _, hln, rfl, rfl⟩
    | found i e =>
      rw [hx] at h
      simp only at h ⊢
      split at h
      · next hv => cases h; rw [if_pos hv]; exact ⟨ln, _, _, hln, rfl, rfl⟩
      · next hv =>
        rw [if_neg hv]
        rcases takeSigned_cases l ln i e s with ⟨hr, h'⟩ | ⟨g, hg, h'⟩
        · rw [h'] at h; cases h; exact ⟨ln, _, _, hln, rfl, takeSigned_of_missing hr l i s'⟩
        · rw [h'] at h; cases h; exact ⟨ln, _, _, hln, rfl, takeSigned_of_bit hg l i s'⟩

end Sys2Proof.Machine
end

