-- ==== Sys2Proof/Laws/PerInstr.lean ====
section
/-! SUPPORT. The family ImageWidth, one lemma per constructor of `Instr`: the encoded form of an instruction has the
number of bits its row of spec/opcode_table.json gives it. -/

namespace Sys2Proof.Laws.ImageWidth

/-- The bits of an image: 32 a word of the load port, one at a decode port, the stream's own. -/
def imageBits : Image → Nat
  | .loadPort ws => 32 * ws.length
  | .decodePort _ _ => 1
  | .stream _ bits => bits.length

/-- The bits of a row: `1 + 4m` words of 32 bits (30_encoding R51), one bit `op` (R57), `e.size` bits of a codeword
and one of a sign code (R53). -/
def rowBits : Instr → Nat
  | .load _ es => 32 * (1 + 4 * es.length)
  | .getrlv _ => 1
  | .getrun _ => 1
  | .symRun _ k => k.length
  | .symMarker _ k => k.length
  | .symValue _ k _ => k.length + 1

def Statement (i : Instr) : Prop := imageBits (encode i) = rowBits i

theorem load (len : Word) (es : List CodeEntry) : Statement (.load len es) := by
  have h : (es.flatMap entryWords).length = 4 * es.length := by
    induction es with
    | nil => rfl
    | cons e es ih => simp [entryWords] at ih ⊢; omega
  simp only [Statement, encode, imageBits, rowBits, List.length_cons, h]
  omega

theorem getrlv (l : Nat) : Statement (.getrlv l) := rfl

theorem getrun (l : Nat) : Statement (.getrun l) := rfl

theorem symRun (l : Nat) (k : List Bool) : Statement (.symRun l k) := rfl

theorem symMarker (l : Nat) (k : List Bool) : Statement (.symMarker l k) := rfl

theorem symValue (l : Nat) (k : List Bool) (g : Bool) : Statement (.symValue l k g) := by
  simp [Statement, encode, imageBits, rowBits]

end Sys2Proof.Laws.ImageWidth
end

