-- ==== Sys2Proof/Laws/Step.lean ====
section
/-! SUPPORT. What one step can do: serve a fetched operation, make the host's next act, or hold. -/

namespace Sys2Proof.Machine

theorem firstWaiting_none_iff (k : Nat) (ls : List Lane) :
    firstWaiting k ls = none ↔ ∀ ln ∈ ls, ln.port = none := by
  induction ls generalizing k with
  | nil => simp [firstWaiting]
  | cons a ls ih =>
    simp only [firstWaiting]
    cases hp : a.port <;> simp [hp, ih]

theorem firstWaiting_of_lowest {k l : Nat} {ls : List Lane} {ln : Lane} {op : BitVec 1} (h : ls[l]? = some ln)
    (hp : ln.port = some op) (hlow : ∀ (j : Nat) (x : Lane), j < l → ls[j]? = some x → x.port = none) :
    firstWaiting k ls = some (k + l, op) := by
  induction ls generalizing k l with
  | nil => simp at h
  | cons a ls ih =>
    simp only [firstWaiting]
    cases l with
    | zero =>
      simp only [List.getElem?_cons_zero, Option.some.injEq] at h
      subst h
      simp [hp]
    | succ l =>
      rw [hlow 0 a (by omega) (by simp)]
      simp only
      rw [ih (k := k + 1) (l := l) (by simpa using h) fun j x hj hx => hlow (j + 1) x (by omega) (by simpa using hx)]
      simp
      omega

theorem decodeOp_lane (l : Nat) (op : BitVec 1) : (decodeOp l op).lane? = some l := by
  unfold decodeOp
  split <;> rfl

theorem decodeLoad_ok {ws : List Word} {i : Instr} (h : decodeLoad ws = .ok i) : ∃ len es, i = .load len es := by
  unfold decodeLoad at h
  split at h
  · cases h
  · split at h
    · cases h
      exact ⟨_, _, rfl⟩
    · cases h

/-- A fetch takes a waiting decode command when `CB_OK = 1` and the load port's transaction when `CB_OK = 0`. -/
theorem fetch_cases {s s' : State} {r : Except LoadError Instr} (h : fetch s = some (r, s')) :
    (s.cbOk = true ∧ ∃ l op, firstWaiting 0 s.lanes = some (l, op) ∧ r = .ok (decodeOp l op) ∧ s' = s.clearPort l) ∨
    (s.cbOk = false ∧ ∃ ws, s.loadPort = some ws ∧ r = decodeLoad ws ∧ s' = { s with loadPort := none }) := by
  unfold fetch at h
  split at h
  · next hc =>
    split at h
    · cases h
      exact .inl ⟨hc, _, _, ‹_›, rfl, rfl⟩
    · cases h
  · next hc =>
    split at h
    · cases h
      exact .inr ⟨by simpa using hc, _, ‹_›, rfl, rfl⟩
    · cases h

/-- A lane after a port has been cleared: the same cursor and response. -/
theorem clearPort_get {s : State} {l j : Nat} {ln : Lane} (h : s.lanes[j]? = some ln) :
    (s.clearPort l).lanes[j]? = some (if l = j then { ln with port := none } else ln) := by
  simp only [State.clearPort, List.getElem?_modify, h]
  split <;> rfl

theorem onLane_next {s t : State} {l : Nat} {k : Lane → Host.Outcome State Fault Refusal}
    (h : onLane l s k = .next t) : ∃ ln, s.lanes[l]? = some ln ∧ k ln = .next t := by
  unfold onLane at h
  split at h
  · cases h
  · exact ⟨_, ‹_›, h⟩

theorem quiesce_next {s t : State} (h : quiesce s = .next t) : t = s := by
  unfold quiesce at h
  split at h <;> split at h <;> cases h <;> rfl

/-- A step that answers a next state ran a fetched instruction, made the host's next act, or held an idle block. -/
theorem step_cases {s t : State} (h : step s = .next t) :
    (∃ i s', fetch s = some (.ok i, s') ∧ exec i s' = .next t) ∨
    (fetch s = none ∧ ∃ a rest, s.hostActs = a :: rest ∧ hostAct a { s with hostActs := rest } = .next t) ∨
    (fetch s = none ∧ s.hostActs = [] ∧ t = s) := by
  unfold step at h
  split at h
  · exact .inl ⟨_, _, ‹_›, h⟩
  · cases ‹LoadError› <;> cases h
  · unfold hostTurn at h
    split at h
    · exact .inr (.inl ⟨‹_›, _, _, ‹_›, h⟩)
    · exact .inr (.inr ⟨‹_›, ‹_›, quiesce_next h⟩)

end Sys2Proof.Machine
end

