-- ==== Sys2Proof/Tests/Slice0.lean ====
section
/-! SUPPORT. Tests from the spec's own encodings and vectors (95_test_vectors), and for every obligation with
hypotheses a named witness that meets them. -/

namespace Sys2Proof.Tests

open Sys2Proof Sys2Proof.Machine

/-! ### Helpers -/

/-- A bit string in stream order. -/
def bs (l : List Nat) : List Bool := l.map (· == 1)

/-- A lane that stands at the start of a stream. -/
def laneOf (stream : List Bool) : Lane := { Lane.fresh with cursor := { stream := stream, pos := 0 } }

/-- A block with a codebook loaded and these lanes. -/
def loaded (cb : List CodeEntry) (lanes : List Lane) : State :=
  { State.reset with
    cbOk := true, cbLen := BitVec.ofNat 32 cb.length, sMax := BitVec.ofNat 6 (maxSize cb), cb := cb, lanes := lanes }

/-- What an instruction gives on a lane: the response and the position after it. -/
def gives (i : Instr) (l : Nat) (s : State) : Option (Option Response × Nat) :=
  (nextState (exec i s)).bind fun t => t.lanes[l]?.map fun ln => (ln.resp, ln.cursor.pos)

/-- What `LOAD` gives: its response, `CB_OK`, `CB_LEN`, `S_MAX`. -/
def loads (p : Config.Params) (len : Word) (es : List CodeEntry) :
    Option (Option LoadResponse × Bool × Word × BitVec 6) :=
  (nextState (exec (.load len es) (State.resetWith p 1))).map fun t => (t.ldResp, t.cbOk, t.cbLen, t.sMax)

/-- CBA of 95_test_vectors section 2. -/
def cba : List CodeEntry :=
  [{ size := 1, bits := 0x0, count := 1, value := 0 }, { size := 2, bits := 0x2, count := 1, value := 1 },
   { size := 3, bits := 0x6, count := 1, value := 2 }, { size := 4, bits := 0xE, count := 12, value := 0 },
   { size := 5, bits := 0x1E, count := 0, value := 0 }, { size := 5, bits := 0x1F, count := 0, value := 0 }]

/-- CBB of 95_test_vectors section 2. -/
def cbb : List CodeEntry :=
  [{ size := 1, bits := 0x0, count := 1, value := 0 }, { size := 3, bits := 0x6, count := 2, value := 3 }]

/-- CBC of 95_test_vectors section 2. -/
def cbc : List CodeEntry :=
  [{ size := 32, bits := 0xDEADBEEF, count := 3, value := 9 }, { size := 2, bits := 0xFFFFFFF1, count := 7, value := 0 },
   { size := 2, bits := 0x80000000, count := 0, value := 0 }, { size := 3, bits := 0x4, count := 0, value := 4 },
   { size := 3, bits := 0x5, count := 1, value := 0xFFFFFFFA },
   { size := 3, bits := 0x7FFFFFFF, count := 1, value := 0x80000000 }]

/-- CBV of 95_test_vectors section 2. -/
def cbv : List CodeEntry :=
  [{ size := 1, bits := 0x1, count := 1, value := 0 }, { size := 2, bits := 0x3, count := 1, value := 5 },
   { size := 2, bits := 0x3, count := 2, value := 6 }, { size := 3, bits := 0x6, count := 3, value := 0 }]

/-- The 32 bits of `0xDEADBEEF` as MV19 writes them. -/
def deadbeef : List Bool :=
  bs [1,1,0,1,1,1,1,0,1,0,1,0,1,1,0,1] ++ bs [1,0,1,1,1,1,1,0,1,1,1,0,1,1,1,1]

def noCheck : Config.Params := { nMax := 4, validatePrefixFree := false }

/-! ### WellFormed: an ill-formed term for each check -/

theorem test_wellFormed_accepts :
    (Instr.load 7 []).wellFormed 0 = true ∧ (Instr.getrlv 1).wellFormed 2 = true ∧
    (Instr.getrun 0).wellFormed 1 = true ∧ (Instr.symRun 0 [true]).wellFormed 1 = true ∧
    (Instr.symMarker 0 deadbeef).wellFormed 1 = true ∧ (Instr.symValue 0 deadbeef true).wellFormed 1 = true := by
  decide

theorem test_wellFormed_refuses_lane :
    (Instr.getrlv 2).wellFormed 2 = false ∧ (Instr.getrun 1).wellFormed 1 = false ∧
    (Instr.symRun 2 [true]).wellFormed 2 = false ∧ (Instr.symMarker 2 [true]).wellFormed 2 = false ∧
    (Instr.symValue 2 [true] false).wellFormed 2 = false := by
  decide

theorem test_wellFormed_refuses_empty_codeword :
    (Instr.symRun 0 []).wellFormed 2 = false ∧ (Instr.symMarker 0 []).wellFormed 2 = false ∧
    (Instr.symValue 0 [] true).wellFormed 2 = false := by
  decide

theorem test_wellFormed_refuses_long_codeword :
    (Instr.symRun 0 (true :: deadbeef)).wellFormed 2 = false ∧
    (Instr.symMarker 0 (true :: deadbeef)).wellFormed 2 = false ∧
    (Instr.symValue 0 (true :: deadbeef) true).wellFormed 2 = false := by
  decide

/-! ### Decode: words written out from the encodings -/

/-- The image of CBB, 95_test_vectors section 2. -/
theorem test_decode_load : (decode [] (.loadPort [0x00000002, 0x00000001, 0x00000000, 0x00000001, 0x00000000,
    0x00000003, 0x00000006, 0x00000002, 0x00000003])).toOption = some (.load 2 cbb) := by
  decide

/-- A table that ends inside an entry, and one with no length word (93 U11). -/
theorem test_decode_load_refuses :
    decode [] (.loadPort [1, 2, 3]) = .error (.load .brokenEntry) ∧
    decode [] (.loadPort []) = .error (.load .noLengthWord) := by
  decide

/-- R57: `op = 0` and `op = 1`, at the port of the lane. -/
theorem test_decode_commands :
    decode [] (.decodePort 3 0) = .ok (.getrlv 3) ∧ decode [] (.decodePort 0 1) = .ok (.getrun 0) := by
  decide

/-- The symbols of P1's stream `0 100 1101 ...`: a run, +1, −2, each followed by what stands behind it. -/
theorem test_decode_symbols :
    decode cba (.stream 0 (bs [0,1,0,0])) = .ok (.symRun 0 (bs [0])) ∧
    decode cba (.stream 0 (bs [1,0,0,1,1,0,1])) = .ok (.symValue 0 (bs [1,0]) false) ∧
    decode cba (.stream 1 (bs [1,1,0,1,1,1,1,0])) = .ok (.symValue 1 (bs [1,1,0]) true) ∧
    decode cba (.stream 0 (bs [1,1,1,1,1])) = .ok (.symMarker 0 (bs [1,1,1,1,1])) := by
  decide

/-- No symbol (S4's `10` under TOY), a codeword cut short (MV6), a missing sign code (RV5). -/
theorem test_decode_symbol_refuses :
    decode toyBook (.stream 0 (bs [1,0])) = .error (.symbol .noSymbol) ∧
    decode toyBook (.stream 0 (bs [1])) = .error (.symbol .shortSymbol) ∧
    decode toyBook (.stream 0 (bs [1,1])) = .error (.symbol .noSignBit) := by
  decide

theorem test_encode_load : encode (.load 2 toyBook) = .loadPort [0x00000002, 0x00000001, 0x00000000, 0x00000001,
    0x00000000, 0x00000002, 0x00000003, 0x00000001, 0x00000005] := by
  decide

/-- The first step after reset runs the placed word: a command, and a table of 288 bits, its words as one number. -/
theorem test_placed_word_runs :
    gives (.getrun 0) 0 (State.reset.withBook) = some (some (.error .bitstreamExhausted 0), 0) ∧
    (nextState (step (State.reset.withFetchWord 8 1))).map (fun t => t.lanes.map Lane.resp) =
      some [some (.error .bitstreamExhausted 0), none] ∧
    (nextState (step (State.reset.withFetchWord 160 (1 + 2 ^ 32 * (1 + 2 ^ 64 * 9))))).map (fun t => (t.ldResp, t.cb)) =
      some (some .ok, [{ size := 1, bits := 0, count := 9, value := 0 }]) := by
  decide

/-! ### One instruction at a time, from 95_test_vectors sections 3 to 5 -/

/-- LD1, LD3 and LD9: tables that are accepted, `S_MAX` up to 32. -/
theorem test_load_accepts :
    loads Config.atReset 2 toyBook = some (some .ok, true, 2, 2) ∧
    loads Config.atReset 6 cbc = some (some .ok, true, 6, 32) ∧
    loads noCheck 4 cbv = some (some .ok, true, 4, 3) := by
  decide

/-- LD4 (too few), LD5 (too many), LD12 (a duplicate after masking), LD13 (the longer one first). -/
theorem test_load_rejects :
    [loads Config.atReset 3 toyBook, loads Config.atReset 1 toyBook,
      loads Config.atReset 2 [{ size := 2, bits := 0xFFFFFFF3, count := 1, value := 1 },
        { size := 2, bits := 0b11, count := 2, value := 2 }],
      loads Config.atReset 2 [{ size := 3, bits := 0b101, count := 1, value := 1 },
        { size := 2, bits := 0b10, count := 2, value := 0 }]] =
    List.replicate 4 (some (some (.error .malformedCodebook), false, 0, 0)) := by
  decide

/-- MV2, MV22, MV25 and MV29: stored values unsigned by `GETRLV`, don't-care bits, the tie-break. -/
theorem test_getrlv_matches :
    gives (.getrlv 0) 0 (loaded toyBook [laneOf (bs [1,1,0])]) = some (some (.ok 1 5 1 false), 2) ∧
    gives (.getrlv 0) 0 (loaded cbc [laneOf (bs [0,1,1,1])]) = some (some (.ok 7 0 1 false), 2) ∧
    gives (.getrlv 0) 0 (loaded cbc [laneOf (bs [1,0,1,0])]) = some (some (.ok 1 0xFFFFFFFA 4 false), 3) ∧
    gives (.getrlv 0) 0 (loaded cbv [laneOf (bs [1,1])]) = some (some (.ok 1 5 1 false), 2) := by
  decide

/-- MV5, MV6, MV7 and MV14: mismatch, a short stream, an empty one, and the corner of D8. -/
theorem test_getrlv_fails :
    gives (.getrlv 0) 0 (loaded toyBook [laneOf (bs [1,0])]) = some (some (.error .unmatchedCodeword 0), 0) ∧
    gives (.getrlv 0) 0 (loaded toyBook [laneOf (bs [1])]) = some (some (.error .bitstreamExhausted 0), 0) ∧
    gives (.getrlv 0) 0 (loaded toyBook [laneOf []]) = some (some (.error .bitstreamExhausted 0), 0) ∧
    gives (.getrlv 0) 0 (loaded cbb [laneOf (bs [1,0])]) = some (some (.error .bitstreamExhausted 0), 0) := by
  decide

/-- RV4, RV29, RV31 and RV16: −5, the negation of −6, of the most negative value, a marker. -/
theorem test_getrun_decodes :
    gives (.getrun 0) 0 (loaded toyBook [laneOf (bs [1,1,1,1])]) = some (some (.ok 1 0xFFFFFFFB 1 false), 3) ∧
    gives (.getrun 0) 0 (loaded cbc [laneOf (bs [1,0,1,1])]) = some (some (.ok 1 6 4 false), 4) ∧
    gives (.getrun 0) 0 (loaded cbc [laneOf (bs [1,1,1,1])]) = some (some (.ok 1 0x80000000 5 false), 4) ∧
    gives (.getrun 0) 0 (loaded cba [laneOf (bs [1,1,1,1,1])]) = some (some (.ok 0 0 5 true), 5) := by
  decide

/-- RV5 (no sign bit: nothing is consumed) and step 8 of P1 (`err_pos` 21 at the end of the stream). -/
theorem test_getrun_fails :
    gives (.getrun 0) 0 (loaded toyBook [laneOf (bs [1,1])]) = some (some (.error .bitstreamExhausted 0), 0) ∧
    gives (.getrun 0) 0 (loaded cba [{ Lane.fresh with cursor :=
      { stream := bs [0,1,0,0,1,1,0,1,1,1,1,0,1,1,0,0,1,1,1,1,0], pos := 21 } }]) =
      some (some (.error .bitstreamExhausted 21), 21) := by
  decide

/-- RV14. -/
theorem test_symRun : gives (.symRun 0 (bs [1,1,1,0])) 0 (loaded cba [laneOf (bs [1,1,1,0])]) =
    some (some (.ok 12 0 3 false), 4) := by
  decide

/-- RV15. -/
theorem test_symMarker : gives (.symMarker 0 (bs [1,1,1,1,0])) 0 (loaded cba [laneOf (bs [1,1,1,1,0])]) =
    some (some (.ok 0 0 4 true), 5) := by
  decide

/-- RV24, the longest symbol. -/
theorem test_symValue : gives (.symValue 0 deadbeef true) 0 (loaded cbc [laneOf (deadbeef ++ [true])]) =
    some (some (.ok 3 0xFFFFFFF7 0 false), 33) := by
  decide

/-- A symbol that is not the one at the cursor does not run (log 11). -/
theorem test_symbol_elsewhere : exec (.symRun 0 (bs [0])) (loaded toyBook [laneOf (bs [1,1,0])]) =
    .fault .symbolNotAtCursor := rfl

/-! ### Witnesses: states and operands that meet the hypotheses of the obligations -/

/-- Two lanes on TOY: `0` and `11 1` ahead on lane 0, the cut symbol `11` on lane 1. -/
def two : State := loaded toyBook [laneOf (bs [0,1,1,1]), laneOf (bs [1,1])]

/-- `two` with every port busy and one act of the host to come. -/
def busy : State :=
  { two with
    loadPort := some [0]
    lanes := two.lanes.map fun ln => { ln with port := some 1 }
    hostActs := [.reset] }

/-- `busy` before its codebook was loaded. -/
def early : State := { busy.clearShared with hostActs := [] }

theorem prefixFree_toyBook : PrefixFree toyBook := (prefixFree_iff_forall _).1 (by decide)

/-- What the lookup finds on a concrete state is selected. -/
theorem selected_of_lookup {s : State} {c : Cursor} {i : Nat} {e : CodeEntry} (h : s.lookup c = .found i e) :
    Selected s.entries (c.peek s.sMax.toNat).1 (c.peek s.sMax.toNat).2 i e := (lookup_found_iff s c i e).1 h

theorem witness_ResetEventDiscardsTheCodebook :
    (∃ t ln ln', hostAct .reset busy = .next t ∧ busy.lanes[1]? = some ln ∧ t.lanes[1]? = some ln' ∧
      ln.cursor = ln'.cursor ∧ ln.cursor.stream ≠ []) ∧ 1 < busy.lanes.length ∧ IsDecode 1 (.getrun 1) :=
  ⟨⟨_, _, _, rfl, rfl, rfl, rfl, by decide⟩, by decide, .getrun⟩

theorem witness_ResetMeetsInvariant : 1 ≤ 2 ∧ (State.resetWith noCheck 2).lanes.length = 2 := by decide

theorem witness_StepKeepsInvariant :
    two.Inv ∧ busy.Inv ∧ early.Inv ∧ (nextState (step two)).isSome = true ∧ (nextState (step busy)).isSome = true ∧
    (nextState (step { early with loadPort := some [0] })).isSome = true := by
  decide

/-- Both parts: the load port, and the lower of the lanes that wait, with a lane below them that does not. -/
theorem witness_StepRunsTheDecodedInstruction :
    (early.cbOk = false ∧ early.loadPort = some [0] ∧ decodeLoad [0] = .ok (.load 0 [])) ∧
    let s := { busy with lanes := laneOf [] :: busy.lanes }
    s.cbOk = true ∧ (∃ ln, s.lanes[1]? = some ln ∧ ln.port = some 1) ∧
      ∀ (j : Nat) (ln' : Lane), j < 1 → s.lanes[j]? = some ln' → ln'.port = none := by
  refine ⟨by decide, rfl, ⟨_, rfl, rfl⟩, fun j ln' hj h => ?_⟩
  obtain rfl : j = 0 := by omega
  cases h
  rfl

theorem witness_PlacedWordRunsNext :
    decodeTableWord 8 1 = some (.getrun 0) ∧ decodeTableWord 32 0 = some (.load 0 []) ∧
    decodeTableWord 33 5 = some (.load 5 [{ size := 0, bits := 0, count := 0, value := 0 }]) := by
  decide

/-- The premise of each clause; a seek to the very end of the stream. -/
theorem witness_HostActsWhenNoPortIsServed :
    (fetch { two with hostActs := [.reset] } = none) ∧ two.loadPort = none ∧
    ∃ ln, two.lanes[1]? = some ln ∧ ln.port = none ∧ 2 ≤ ln.cursor.stream.length ∧ ¬ 3 ≤ ln.cursor.stream.length :=
  ⟨rfl, rfl, _, rfl, rfl, by decide, by decide⟩

theorem witness_UnacceptedOperationHasNoStep :
    two.cbOk = true ∧ early.cbOk = false ∧ (Instr.getrlv 1).lane? = some 1 ∧ 1 < early.lanes.length := by
  decide

/-- The four cases: a `LOAD` that waits, a block at rest, a decode that waits, an empty block at rest. -/
theorem witness_WaitWithoutEndIsStuck :
    (two.hostActs = [] ∧ two.cbOk = true ∧ (∀ ln ∈ two.lanes, ln.port = none) ∧ two.loadPort = none) ∧
    ({ two with loadPort := some [] }).loadPort ≠ none ∧
    (State.reset.hostActs = [] ∧ State.reset.cbOk = false ∧ State.reset.loadPort = none ∧
      ∀ ln ∈ State.reset.lanes, ln.port = none) ∧
    let s := { early with loadPort := none }
    s.hostActs = [] ∧ s.cbOk = false ∧ s.loadPort = none ∧ ∃ ln ∈ s.lanes, ln.port ≠ none := by
  decide

theorem witness_WaitingTransactionStays :
    ((nextState (step busy)).isSome = true ∧ busy.cbOk = true ∧ busy.loadPort = some [0]) ∧
    (nextState (step early)).isSome = true ∧ early.cbOk = false ∧
    ∃ ln, early.lanes[1]? = some ln ∧ ln.port = some 1 :=
  ⟨by decide, by decide, rfl, _, rfl, rfl⟩

/-- TOY on a store that it fills, checked; CBV, unchecked; sizes up to 32. -/
theorem witness_LoadStoresTheTable :
    ((2 : Word).toNat = toyBook.length ∧ (2 : Word) ≠ 0 ∧ ∀ e ∈ toyBook, LegalSize e) ∧ PrefixFree toyBook ∧
    (State.resetWith { nMax := 2, validatePrefixFree := true } 1).cfg.nMax = (2 : Word).toNat ∧
    (∀ e ∈ cbv, LegalSize e) ∧ noCheck.validatePrefixFree = false ∧ (∀ e ∈ cbc, LegalSize e) ∧ PrefixFree cbc :=
  ⟨by decide, prefixFree_toyBook, rfl, by decide, rfl, by decide, (prefixFree_iff_forall _).1 (by decide)⟩

/-- Each cause: LD4, LD6, LD14, LD7, LD8 and LD10. -/
theorem witness_LoadRejectsABadTable :
    State.reset.cbOk = false ∧ (3 : Word).toNat ≠ toyBook.length ∧ (0 : Word) = 0 ∧
    ({ nMax := 1, validatePrefixFree := true } : Config.Params).nMax < (2 : Word).toNat ∧
    (∃ e ∈ [({ size := 0, bits := 0, count := 1, value := 0 } : CodeEntry)], e.size = 0) ∧
    (∃ e ∈ [({ size := 33, bits := 0, count := 1, value := 0 } : CodeEntry)], 32 < e.size.toNat) ∧
    State.reset.cfg.validatePrefixFree = true ∧
    ∃ (i j : Nat) (a b : CodeEntry), i ≠ j ∧ cbv[i]? = some a ∧ cbv[j]? = some b ∧ BitPrefix a b :=
  ⟨rfl, by decide, rfl, by decide, by decide, by decide, rfl, 0, 1, _, _, by decide, rfl, rfl, by decide⟩

theorem witness_FailedLoadAdmitsAnother :
    State.reset.EmptyOk ∧ ∃ t, exec (.load 3 toyBook) State.reset = .next t ∧ t.ldResp ≠ some .ok ∧
      IsDecode 1 (.getrlv 1) ∧ 1 < t.lanes.length :=
  ⟨fun _ => ⟨rfl, rfl⟩, _, rfl, by decide, .getrlv, by decide⟩

/-- TOY turned round, then with other data fields and don't-care bits. -/
theorem witness_LoadVerdictReadsOnlyCodewords :
    toyBook.Perm toyBook.reverse ∧
    List.Forall₂ (fun a b : CodeEntry => a.size = b.size ∧
      a.bits.toNat % 2 ^ a.size.toNat = b.bits.toNat % 2 ^ b.size.toNat) toyBook.reverse
      [{ size := 2, bits := 0xFFFFFFFF, count := 0, value := 0 }, { size := 1, bits := 2, count := 8, value := 7 }] :=
  ⟨(List.reverse_perm _).symm, .cons (by decide) (.cons (by decide) .nil)⟩

theorem witness_LoadFrame :
    (∃ t, exec (.load 2 toyBook) State.reset = .next t ∧ t.cbOk = true) ∧
    ∃ t, exec (.load 3 toyBook) State.reset = .next t ∧ t.cbOk = false :=
  ⟨⟨_, rfl, rfl⟩, _, rfl, rfl⟩

theorem witness_CodebookIsImmutable :
    two.cbOk = true ∧ (∃ t, exec (.getrun 0) two = .next t) ∧ (nextState (step busy)).isSome = true ∧
    ∃ t, step { two with hostActs := [.reset] } = .next t ∧ t.cbOk = false :=
  ⟨rfl, ⟨_, rfl⟩, by decide, _, rfl, rfl⟩

/-- MV29: two entries of the longest size match, the first is selected. -/
theorem witness_GetrlvReportsTheSelectedEntry :
    ∃ (s : State) (l : Nat) (ln : Lane) (L w i : Nat) (e : CodeEntry), s.cbOk = true ∧ s.lanes[l]? = some ln ∧
      ln.cursor.peek s.sMax.toNat = (L, w) ∧ Selected s.entries L w i e ∧ i = 1 :=
  ⟨loaded cbv [laneOf (bs [1,1])], 0, _, _, _, 1, cbv[1], rfl, rfl, rfl, selected_of_lookup (by decide), rfl⟩

/-- MV5 (`L = S_MAX`) and MV6 (`L < S_MAX`), the premises of both failures; for `GETRUN` too. -/
theorem witness_GetrlvFailsWithoutConsuming :
    (∃ ln w, (loaded toyBook [laneOf (bs [1,0])]).lanes[0]? = some ln ∧ ln.cursor.peek 2 = (2, w) ∧
      NoMatch (loaded toyBook [laneOf (bs [1,0])]).entries 2 w) ∧
    ∃ ln w, (loaded toyBook [laneOf (bs [1])]).lanes[0]? = some ln ∧ ln.cursor.peek 2 = (1, w) ∧
      NoMatch (loaded toyBook [laneOf (bs [1])]).entries 1 w :=
  ⟨⟨_, 2, rfl, by decide, by decide⟩, _, 1, rfl, by decide, by decide⟩

theorem witness_GetrunFailsAsTheMatcher :
    ∃ (s : State) (l : Nat) (ln : Lane) (L w : Nat), s.cbOk = true ∧ s.lanes[l]? = some ln ∧
      ln.cursor.peek s.sMax.toNat = (L, w) ∧ NoMatch s.entries L w :=
  ⟨loaded toyBook [laneOf (bs [1,0])], 0, _, 2, 2, rfl, rfl, by decide, by decide⟩

/-- A run entry (RV14) and a marker entry (RV15), where `SYM.RUN` and `SYM.MARKER` stand. -/
theorem witness_GetrunReportsRunsAndMarkers :
    (∃ (s : State) (l : Nat) (ln : Lane) (L w i : Nat) (e : CodeEntry), s.cbOk = true ∧ s.lanes[l]? = some ln ∧
      ln.cursor.peek s.sMax.toNat = (L, w) ∧ Selected s.entries L w i e ∧ e.value = 0 ∧ e.count ≠ 0) ∧
    ∃ (s : State) (l : Nat) (ln : Lane) (L w i : Nat) (e : CodeEntry), s.cbOk = true ∧ s.lanes[l]? = some ln ∧
      ln.cursor.peek s.sMax.toNat = (L, w) ∧ Selected s.entries L w i e ∧ e.value = 0 ∧ e.count = 0 :=
  ⟨⟨loaded cba [laneOf (bs [1,1,1,0])], 0, _, _, _, 3, cba[3], rfl, rfl, rfl, selected_of_lookup (by decide),
      by decide, by decide⟩,
    loaded cba [laneOf (bs [1,1,1,1,0])], 0, _, _, _, 4, cba[4], rfl, rfl, rfl, selected_of_lookup (by decide),
      by decide, by decide⟩

theorem witness_SymRunCompletes :
    ∃ (s : State) (l : Nat) (ln : Lane) (L w i : Nat) (e : CodeEntry), s.cbOk = true ∧ s.lanes[l]? = some ln ∧
      ln.cursor.peek s.sMax.toNat = (L, w) ∧ Selected s.entries L w i e ∧ e.value = 0 ∧ e.count ≠ 0 :=
  witness_GetrunReportsRunsAndMarkers.1

theorem witness_SymMarkerCompletes :
    ∃ (s : State) (l : Nat) (ln : Lane) (L w i : Nat) (e : CodeEntry), s.cbOk = true ∧ s.lanes[l]? = some ln ∧
      ln.cursor.peek s.sMax.toNat = (L, w) ∧ Selected s.entries L w i e ∧ e.value = 0 ∧ e.count = 0 :=
  witness_GetrunReportsRunsAndMarkers.2

/-- RV26: an entry with `count = 0` and exactly its sign bit, 1, left; where `SYM.VALUE` stands. -/
theorem witness_GetrunSignsValues :
    ∃ (s : State) (l : Nat) (ln : Lane) (L w i : Nat) (e : CodeEntry), s.cbOk = true ∧ s.lanes[l]? = some ln ∧
      ln.cursor.peek s.sMax.toNat = (L, w) ∧ Selected s.entries L w i e ∧ e.value ≠ 0 ∧
      e.size.toNat + 1 ≤ ln.cursor.remaining ∧ ln.cursor.stream[ln.cursor.pos + e.size.toNat]? = some true :=
  ⟨loaded cbc [laneOf (bs [1,0,0,1])], 0, _, _, _, 3, cbc[3], rfl, rfl, rfl, selected_of_lookup (by decide),
    by decide, by decide, by decide⟩

theorem witness_SymValueCompletes :
    ∃ (s : State) (l : Nat) (ln : Lane) (L w i : Nat) (e : CodeEntry) (g : Bool), s.cbOk = true ∧
      s.lanes[l]? = some ln ∧ ln.cursor.peek s.sMax.toNat = (L, w) ∧ Selected s.entries L w i e ∧ e.value ≠ 0 ∧
      ln.cursor.stream[ln.cursor.pos + e.size.toNat]? = some g := by
  obtain ⟨s, l, ln, L, w, i, e, h1, h2, h3, h4, h5, -, h6⟩ := witness_GetrunSignsValues
  exact ⟨s, l, ln, L, w, i, e, true, h1, h2, h3, h4, h5, h6⟩

/-- RV5, and the append of P2. -/
theorem witness_GetrunWithoutSignBit :
    ∃ (ln : Lane) (L w i : Nat) (e : CodeEntry) (s' : State), two.cbOk = true ∧ two.lanes[1]? = some ln ∧
      ln.cursor.peek two.sMax.toNat = (L, w) ∧ Selected two.entries L w i e ∧ e.value ≠ 0 ∧
      ln.cursor.remaining < e.size.toNat + 1 ∧ PrefixFree two.entries ∧ ln.cursor.pos ≤ ln.cursor.stream.length ∧
      hostAct (.append 1 (true :: [false])) two = .next s' :=
  ⟨_, _, _, 1, toyBook[1], _, rfl, rfl, rfl, selected_of_lookup (by decide), by decide, by decide,
    prefixFree_toyBook, by decide, rfl⟩

/-- The three premises: nothing matches, a run entry, a value entry. -/
theorem witness_GetrunAgainstGetrlv :
    (∃ w, (laneOf (bs [1,0])).cursor.peek 2 = (2, w) ∧ NoMatch toyBook 2 w) ∧
    (∃ ln i e, two.lanes[0]? = some ln ∧ two.lookup ln.cursor = .found i e ∧ e.value = 0) ∧
    ∃ ln i e, two.lanes[1]? = some ln ∧ two.lookup ln.cursor = .found i e ∧ e.value ≠ 0 :=
  ⟨⟨2, by decide, by decide⟩, ⟨_, 0, toyBook[0], rfl, by decide, by decide⟩, _, 1, toyBook[1], rfl, by decide,
    by decide⟩

theorem witness_GetrunRunsTheSymbolAtTheCursor :
    (∃ ln, two.cbOk = true ∧ two.lanes[0]? = some ln ∧
      decodeSymbol two.entries two.sMax.toNat 0 ln.cursor.rest = .ok (.symRun 0 (bs [0]), bs [1,1,1])) ∧
    (∃ t, exec (.symRun 0 (bs [0])) two = .next t) ∧
    (∃ t, exec (.symMarker 0 (bs [1,1,1,1,1])) (loaded cba [laneOf (bs [1,1,1,1,1])]) = .next t) ∧
    ∃ t, exec (.symValue 0 (bs [1,1]) true) (loaded toyBook [laneOf (bs [1,1,1])]) = .next t :=
  ⟨⟨_, rfl, rfl, rfl⟩, ⟨_, rfl⟩, ⟨_, rfl⟩, _, rfl⟩

theorem witness_DecodeFrame :
    (Instr.getrlv 1).lane? = some 1 ∧ (∃ t, exec (.getrlv 1) two = .next t) ∧ ∃ t, exec (.getrun 1) two = .next t :=
  ⟨rfl, ⟨_, rfl⟩, _, rfl⟩

theorem witness_ErrorsChangeNothing :
    (∃ t ln', IsDecode 1 (.getrun 1) ∧ exec (.getrun 1) two = .next t ∧ t.lanes[1]? = some ln' ∧
      ln'.resp = some (.error .bitstreamExhausted 0)) ∧
    ∃ t, exec (.load 3 toyBook) State.reset = .next t ∧ t.ldResp = some (.error .malformedCodebook) :=
  ⟨⟨_, _, .getrun, rfl, rfl, rfl⟩, _, rfl, rfl⟩

theorem witness_ConsumptionIsExact :
    IsDecode 0 (.getrlv 0) ∧ (∃ t, exec (.getrlv 0) two = .next t) ∧
    ∃ t, exec (.load 2 toyBook) State.reset = .next t :=
  ⟨.getrlv, ⟨_, rfl⟩, _, rfl⟩

theorem witness_PositionsOnlyMoveForward :
    ∃ t ln, exec (.getrun 0) two = .next t ∧ two.lanes[0]? = some ln ∧ ln.cursor.pos ≤ ln.cursor.stream.length :=
  ⟨_, _, rfl, rfl, by decide⟩

/-- Two lanes that agree on the next three bits and on no bit after them. -/
theorem witness_DecodeReadsOnlyTheLookAhead :
    ∃ s ln₁ ln₂, s = loaded toyBook [laneOf (bs [1,1,1,0]), laneOf (bs [1,1,1,1])] ∧ s.lanes[0]? = some ln₁ ∧
      s.lanes[1]? = some ln₂ ∧ ln₁.cursor.pos = ln₂.cursor.pos ∧
      ln₁.cursor.rest.take s.sMax.toNat = ln₂.cursor.rest.take s.sMax.toNat ∧
      ln₁.cursor.rest.take (s.sMax.toNat + 1) = ln₂.cursor.rest.take (s.sMax.toNat + 1) :=
  ⟨_, _, _, rfl, rfl, rfl, rfl, rfl, rfl⟩

theorem witness_EntryOrderChangesOnlyTheIndex :
    IsDecode 0 (.getrun 0) ∧ two.cb.length = two.cbLen.toNat ∧ PrefixFree two.cb ∧ two.cb.Perm two.cb.reverse :=
  ⟨.getrun, rfl, prefixFree_toyBook, (List.reverse_perm _).symm⟩

theorem witness_DontCareBitsAreIgnored :
    (Instr.getrun 0).lane? = some 0 ∧
    List.Forall₂ (fun a b : CodeEntry => a.size = b.size ∧ a.count = b.count ∧ a.value = b.value ∧
      a.bits.toNat % 2 ^ a.size.toNat = b.bits.toNat % 2 ^ b.size.toNat) two.cb
      [{ size := 1, bits := 2, count := 1, value := 0 }, { size := 2, bits := 0xFFFFFFFF, count := 1, value := 5 }] :=
  ⟨rfl, .cons (by decide) (.cons (by decide) .nil)⟩

theorem witness_LanesCommute :
    ∃ sa t, 0 ≠ 1 ∧ IsDecode 0 (.getrun 0) ∧ IsDecode 1 (.getrlv 1) ∧ exec (.getrun 0) two = .next sa ∧
      exec (.getrlv 1) sa = .next t :=
  ⟨_, _, by decide, .getrun, .getrlv, rfl, rfl⟩

theorem witness_InterleavingLeavesEachLaneAlone :
    (∀ i ∈ [Instr.getrun 0, .getrlv 1, .getrun 0], ∃ j, IsDecode j i) ∧
    ∃ t, execAll [.getrun 0, .getrlv 1, .getrun 0] two = .next t := by
  refine ⟨fun i hi => ?_, _, rfl⟩
  simp only [List.mem_cons, List.not_mem_nil, or_false] at hi
  rcases hi with rfl | rfl | rfl
  · exact ⟨0, .getrun⟩
  · exact ⟨1, .getrlv⟩
  · exact ⟨0, .getrun⟩

/-- P2: exhausted, then two bits appended. -/
theorem witness_RetryAfterFailure :
    ∃ t ln' s₁ t₁, IsDecode 1 (.getrun 1) ∧ exec (.getrun 1) two = .next t ∧ t.lanes[1]? = some ln' ∧
      ln'.resp = some (.error .bitstreamExhausted 0) ∧ hostAct (.append 1 (bs [1,0])) two = .next s₁ ∧
      hostAct (.append 1 (bs [1,0])) t = .next t₁ :=
  ⟨_, _, _, _, .getrun, rfl, rfl, rfl, rfl, rfl⟩

/-- Every code: `OK` and `MalformedCodebook`; `OK`, `BitstreamExhausted` and `UnmatchedCodeword`. -/
theorem witness_StatusCodesByOperation :
    (∃ t, exec (.load 2 toyBook) State.reset = .next t ∧ t.ldResp = some .ok) ∧
    (∃ t, exec (.load 3 toyBook) State.reset = .next t ∧ t.ldResp = some (.error .malformedCodebook)) ∧
    gives (.getrlv 0) 0 two = some (some (.ok 1 0 0 false), 1) ∧
    gives (.getrun 1) 1 two = some (some (.error .bitstreamExhausted 0), 0) ∧
    gives (.getrun 0) 0 (loaded toyBook [laneOf (bs [1,0])]) = some (some (.error .unmatchedCodeword 0), 0) :=
  ⟨⟨_, rfl, rfl⟩, ⟨_, rfl, rfl⟩, by decide, by decide, by decide⟩

theorem witness_EveryAcceptedOperationResponds :
    State.reset.cbOk = false ∧ two.cbOk = true ∧ 1 < two.lanes.length ∧ IsDecode 1 (.getrun 1) :=
  ⟨rfl, rfl, by decide, .getrun⟩

theorem witness_EntryDecodesFromItsCodeword :
    ∃ s ln, s = loaded toyBook [laneOf (bs [1,1,1,0])] ∧ s.cbOk = true ∧ s.lanes[0]? = some ln ∧
      PrefixFree s.entries ∧ (∀ f ∈ s.entries, f.size.toNat ≤ s.sMax.toNat) ∧ s.entries[1]? = some toyBook[1] ∧
      ln.cursor.rest = cwBits toyBook[1] ++ true :: [false] :=
  ⟨_, _, rfl, rfl, rfl, prefixFree_toyBook, by decide, rfl, by decide⟩

/-- Both clauses of `Take`, at their boundary. -/
theorem witness_TakeMovesThePosition :
    2 ≤ (laneOf (bs [1,1])).cursor.remaining ∧ (laneOf (bs [1,1])).cursor.remaining < 3 := by
  decide

theorem witness_PeekReadsMostSignificantFirst :
    (laneOf (bs [1,1,0])).cursor.peek 5 = (3, 6) ∧ (3 : Nat) = min 5 ((bs [1,1,0]).length - 0) := by
  decide

theorem witness_MatchIsBitByBit :
    (laneOf (bs [1,1,0])).cursor.peek 2 = (2, 3) ∧ Matches 2 3 toyBook[1] ∧ ¬ Matches 2 3 toyBook[0] := by
  decide

/-- `11`, seen in two bits and still matched with a third. -/
theorem witness_PrefixFreeMatchIsUnique :
    PrefixFree toyBook ∧ toyBook[1]? = some toyBook[1] ∧
    Matches (min 3 (bs [1,1]).length) (bitsVal ((bs [1,1]).take 3)) toyBook[1] ∧
    Matches (min 3 (bs [1,1] ++ bs [0]).length) (bitsVal ((bs [1,1] ++ bs [0]).take 3)) toyBook[1] :=
  ⟨prefixFree_toyBook, rfl, by decide, by decide⟩

/-- MV14, where the readings differ; an empty look-ahead, where they agree. -/
theorem witness_ExhaustReadingsDifferInKindOnly :
    lookupIn .byLength cbb 3 2 2 ≠ lookupIn .byViability cbb 3 2 2 ∧ cbb ≠ [] ∧ (∀ e ∈ cbb, LegalSize e) ∧
    lookupIn .byLength cbb 3 1 0 = .found 0 cbb[0] := by
  decide

/-- A term of each constructor that meets all premises under CBA. -/
theorem witness_DecodeEncodeAgree :
    PrefixFree cba ∧ (∀ e ∈ cba, LegalSize e) ∧
    ∀ i ∈ [Instr.load 1 [], .getrlv 1, .getrun 0, .symRun 0 (bs [1,1,1,0]), .symMarker 1 (bs [1,1,1,1,1]),
      .symValue 0 (bs [1,1,0]) true], i.wellFormed 2 = true ∧ i.inBook cba := by
  refine ⟨(prefixFree_iff_forall _).1 (by decide), by decide, fun i hi => ?_⟩
  simp only [List.mem_cons, List.not_mem_nil, or_false] at hi
  rcases hi with rfl | rfl | rfl | rfl | rfl | rfl
  · exact ⟨rfl, trivial⟩
  · exact ⟨rfl, trivial⟩
  · exact ⟨rfl, trivial⟩
  · exact ⟨rfl, cba[3], by decide, by decide, by decide, by decide⟩
  · exact ⟨rfl, cba[5], by decide, by decide, by decide, by decide⟩
  · exact ⟨rfl, cba[2], by decide, by decide, by decide⟩

theorem witness_LoadImageKeepsEveryWord :
    decodeLoad [2, 1, 0, 1, 0] = .ok (.load 2 [{ size := 1, bits := 0, count := 1, value := 0 }]) ∧
    [2, 1, 0, 1, (0 : Word)].length = 1 + 4 * 1 :=
  ⟨rfl, rfl⟩

theorem witness_SymbolKeepsEveryBit :
    decodeSymbol toyBook 2 0 (bs [1,1,0,1]) = .ok (.symValue 0 (bs [1,1]) false, bs [1]) := rfl

theorem witness_StreamOnlyGrows :
    (∃ t ln, step { two with hostActs := [.append 1 [true]] } = .next t ∧ two.lanes[1]? = some ln) ∧
    ∃ t, step { two with hostActs := [.attach 1 []] } = .next t :=
  ⟨⟨_, _, rfl, rfl⟩, _, rfl⟩

end Sys2Proof.Tests
end

/-! PROOFS. The family 10_state: reset, the invariant of codebook and cursors, the frame of an instruction and how far
it moves a cursor. First what `LOAD`, a decode and a host act can do, then what each keeps, then the statements. -/

namespace Sys2Proof.Machine

/-! ### What an instruction can do -/

/-- A `LOAD` that answers a next state was accepted, and stored its table or rejected it (40_codebook_load R77, R78). -/
theorem exec_load_next {s t : State} {len : Word} {es : List CodeEntry} (h : exec (.load len es) s = .next t) :
    s.cbOk = false ∧ ((tableOk s.cfg len es = true ∧ t = s.accept len es) ∨
      (tableOk s.cfg len es = false ∧ t = { s with ldResp := some (.error .malformedCodebook) })) := by
  change execLoad len es s = .next t at h
  rcases execLoad_cases len es s with ⟨-, he⟩ | ⟨hc, hok, he⟩ | ⟨hc, hok, he⟩ <;> rw [he] at h <;> cases h
  · exact ⟨hc, .inl ⟨hok, rfl⟩⟩
  · exact ⟨hc, .inr ⟨hok, rfl⟩⟩

theorem exec_load_lanes {s t : State} {len : Word} {es : List CodeEntry} (h : exec (.load len es) s = .next t) :
    t.lanes = s.lanes := by
  obtain ⟨-, ⟨-, rfl⟩ | ⟨-, rfl⟩⟩ := exec_load_next h <;> rfl

/-- A decode or symbol on lane `l` gives that lane a response and a position, not behind the old one, and within the
stream if the old one was (10_state R18, R19). -/
theorem exec_lane_decoded {s t : State} {i : Instr} {l : Nat} (hl : i.lane? = some l) (h : exec i s = .next t) :
    ∃ ln p r, s.lanes[l]? = some ln ∧ t = s.decoded l ln p r ∧ ln.cursor.pos ≤ p ∧
      (ln.cursor.pos ≤ ln.cursor.stream.length → p ≤ ln.cursor.stream.length) := by
  obtain ⟨-, ln, hln, ⟨k, -, rfl⟩ | ⟨idx, e, hx, ⟨-, rfl⟩ | ⟨g, hg, -, -, rfl⟩⟩⟩ := exec_lane_next hl h
  · exact ⟨ln, _, _, hln, rfl, le_rfl, id⟩
  · have hle : e.size.toNat ≤ ln.cursor.stream.length - ln.cursor.pos := lookup_found_le hx
    exact ⟨ln, _, _, hln, rfl, by omega, by omega⟩
  · have hlt := (List.getElem?_eq_some_iff.1 hg).1
    exact ⟨ln, _, _, hln, rfl, by omega, fun _ => hlt⟩

/-! ### What a host act can do -/

/-- The host acts on one lane `l` of the block, each with the lane before and after (20_memory R31, 30_encoding R57,
70_reset_and_hazards R142, R145). -/
inductive LaneAct (l : Nat) (ln : Lane) : HostAct → Lane → Prop where
  | issueDecode (op : BitVec 1) (free : ln.port = none) :
      LaneAct l ln (.issueDecode l op) { ln with port := some op, resp := none }
  | append (bits : List Bool) :
      LaneAct l ln (.append l bits) { ln with cursor := { ln.cursor with stream := ln.cursor.stream ++ bits } }
  | seek (p : Nat) (within : p ≤ ln.cursor.stream.length) :
      LaneAct l ln (.seek l p) { ln with cursor := { ln.cursor with pos := p } }
  | attach (bits : List Bool) : LaneAct l ln (.attach l bits) { ln with cursor := { stream := bits, pos := 0 } }

/-- A host act that answers a next state was the reset event, filled the free load port, or acted on one lane. -/
theorem hostAct_cases {s t : State} {a : HostAct} (h : hostAct a s = .next t) :
    (a = .reset ∧ t = hostReset s) ∨
    (∃ ws, a = .issueLoad ws ∧ s.loadPort = none ∧ t = { s with loadPort := some ws, ldResp := none }) ∨
    ∃ l ln ln', s.lanes[l]? = some ln ∧ LaneAct l ln a ln' ∧ t = s.setLane l ln' := by
  cases a with
  | reset => cases h; exact .inl ⟨rfl, rfl⟩
  | issueLoad ws =>
    simp only [hostAct, hostIssueLoad] at h
    split at h
    · cases h
    · next hp => cases h; exact .inr (.inl ⟨ws, rfl, hp, rfl⟩)
  | issueDecode l op =>
    obtain ⟨ln, hl, h⟩ := onLane_next h
    split at h
    · cases h
    · next hp => cases h; exact .inr (.inr ⟨l, ln, _, hl, .issueDecode op hp, rfl⟩)
  | append l bits =>
    obtain ⟨ln, hl, h⟩ := onLane_next h
    cases h
    exact .inr (.inr ⟨l, ln, _, hl, .append bits, rfl⟩)
  | seek l p =>
    obtain ⟨ln, hl, h⟩ := onLane_next h
    split at h
    · next hp => cases h; exact .inr (.inr ⟨l, ln, _, hl, .seek p hp, rfl⟩)
    · cases h
  | attach l bits =>
    obtain ⟨ln, hl, h⟩ := onLane_next h
    cases h
    exact .inr (.inr ⟨l, ln, _, hl, .attach bits, rfl⟩)

/-- No host act leaves a cursor outside its stream (10_state R17, R19). -/
theorem LaneAct.within {l : Nat} {ln ln' : Lane} {a : HostAct} (h : LaneAct l ln a ln')
    (hw : ln.cursor.pos ≤ ln.cursor.stream.length) : ln'.cursor.pos ≤ ln'.cursor.stream.length := by
  cases h with
  | issueDecode op _ => exact hw
  | append bits => exact hw.trans (by simp)
  | seek p hp => exact hp
  | attach bits => exact Nat.zero_le _

/-! ### The codebook stays -/

/-- The shared codebook state of `t` is that of `s` (10_state R10). -/
def State.SameBook (s t : State) : Prop :=
  t.cbOk = s.cbOk ∧ t.cbLen = s.cbLen ∧ t.sMax = s.sMax ∧ t.cb = s.cb

theorem State.SameBook.trans {s t u : State} (h : s.SameBook t) (h' : t.SameBook u) : s.SameBook u := by
  obtain ⟨h1, h2, h3, h4⟩ := h
  obtain ⟨h1', h2', h3', h4'⟩ := h'
  exact ⟨h1'.trans h1, h2'.trans h2, h3'.trans h3, h4'.trans h4⟩

/-- Taking an operation off its port leaves the codebook. -/
theorem fetch_sameBook {s s' : State} {r : Except LoadError Instr} (h : fetch s = some (r, s')) : s.SameBook s' := by
  obtain ⟨-, l, op, -, -, rfl⟩ | ⟨-, ws, -, -, rfl⟩ := fetch_cases h <;> exact ⟨rfl, rfl, rfl, rfl⟩

/-- While `CB_OK = 1` an instruction leaves the codebook: a `LOAD` is not accepted (40_codebook_load R71). -/
theorem exec_sameBook {s t : State} {i : Instr} (hc : s.cbOk = true) (h : exec i s = .next t) : s.SameBook t := by
  cases hl : i.lane? with
  | none =>
    obtain ⟨len, es, rfl⟩ := (lane_eq_none_iff i).1 hl
    rw [(exec_load_next h).1] at hc
    cases hc
  | some l =>
    obtain ⟨ln, p, r, -, rfl, -⟩ := exec_lane_decoded hl h
    exact ⟨rfl, rfl, rfl, rfl⟩

/-- Of the host's acts only the reset event touches the codebook. -/
theorem hostAct_sameBook {s t : State} {a : HostAct} (ha : a ≠ .reset) (h : hostAct a s = .next t) :
    s.SameBook t := by
  obtain ⟨rfl, -⟩ | ⟨ws, -, -, rfl⟩ | ⟨l, ln, ln', -, -, rfl⟩ := hostAct_cases h
  · exact absurd rfl ha
  · exact ⟨rfl, rfl, rfl, rfl⟩
  · exact ⟨rfl, rfl, rfl, rfl⟩

/-! ### The invariant is kept -/

theorem inv_within {s : State} (h : s.Inv) {l : Nat} {ln : Lane} (hl : s.lanes[l]? = some ln) :
    ln.cursor.pos ≤ ln.cursor.stream.length :=
  ((memory_wf_iff s).1 h.1).2 ln (List.mem_of_getElem? hl)

/-- A lane whose cursor stands within its stream keeps the invariant. -/
theorem setLane_inv {s : State} {l : Nat} {ln : Lane} (h : s.Inv) (hw : ln.cursor.pos ≤ ln.cursor.stream.length) :
    (s.setLane l ln).Inv := by
  obtain ⟨hwf, hlanes, hempty, hbook⟩ := h
  exact ⟨setLane_memory_wf hwf hw, by simpa using hlanes, hempty, hbook⟩

/-- Taking a command off a port updates that lane, where it exists. -/
theorem clearPort_eq_setLane (s : State) (l : Nat) :
    s.clearPort l = (s.lanes[l]?.map fun ln => s.setLane l { ln with port := none }).getD s := by
  simp only [State.clearPort, State.setLane, List.modify_eq_set_getElem?]
  cases s.lanes[l]? <;> rfl

theorem clearPort_inv {s : State} (h : s.Inv) (l : Nat) : (s.clearPort l).Inv := by
  rw [clearPort_eq_setLane]
  cases hl : s.lanes[l]? with
  | none => exact h
  | some ln =>
    have hw := inv_within h hl
    exact setLane_inv h hw

theorem fetch_inv {s s' : State} {r : Except LoadError Instr} (hs : s.Inv) (h : fetch s = some (r, s')) : s'.Inv := by
  obtain ⟨-, l, op, -, -, rfl⟩ | ⟨-, ws, -, -, rfl⟩ := fetch_cases h
  · exact clearPort_inv hs l
  · exact hs

/-- The largest of legal sizes fits the six bits of `S_MAX` (10_state R14). -/
theorem accept_sMax_toNat {s : State} {len : Word} {es : List CodeEntry} (h : ∀ e ∈ es, LegalSize e) :
    (s.accept len es).sMax.toNat = maxSize es := by
  have hle : maxSize es ≤ 32 := by
    by_cases hes : es = []
    · simp [hes, maxSize]
    · obtain ⟨e, he, hm⟩ := exists_maxSize hes
      exact hm ▸ (h e he).2
  rw [accept_sMax, BitVec.toNat_ofNat]
  exact Nat.mod_eq_of_lt (by omega)

/-- What the checks R72 to R76 let through has the invariants of a codebook (10_state R12, R14, R15). -/
theorem accept_inv {s : State} {len : Word} {es : List CodeEntry} (hs : s.Inv) (hok : tableOk s.cfg len es = true) :
    (s.accept len es).Inv := by
  obtain ⟨hwf, hlanes, -, -⟩ := hs
  obtain ⟨hlen, hne, hmax, hsize, hpf⟩ := (tableOk_iff _ _ _).1 hok
  have hpos : 1 ≤ len.toNat := Nat.pos_of_ne_zero fun h0 => hne (BitVec.eq_of_toNat_eq h0)
  have hall : es.all sizeOk = true := List.all_eq_true.2 fun e he => (sizeOk_iff e).2 (hsize e he)
  exact ⟨accept_memory_wf hwf hlen.symm, hlanes, nofun,
    fun _ => ⟨hpos, hmax, accept_sMax_toNat hsize, hall, fun hv => (prefixFree_iff_forall es).2 (hpf hv)⟩⟩

theorem exec_inv {s t : State} {i : Instr} (hs : s.Inv) (h : exec i s = .next t) : t.Inv := by
  cases hl : i.lane? with
  | none =>
    obtain ⟨len, es, rfl⟩ := (lane_eq_none_iff i).1 hl
    obtain ⟨-, ⟨hok, rfl⟩ | ⟨-, rfl⟩⟩ := exec_load_next h
    · exact accept_inv hs hok
    · exact hs
  | some l =>
    obtain ⟨ln, p, r, hln, rfl, -, hp⟩ := exec_lane_decoded hl h
    exact setLane_inv hs (hp (inv_within hs hln))

/-- The reset event leaves a block without a codebook, its cursors where they were (70_reset_and_hazards R140). -/
theorem hostReset_inv {s : State} (hs : s.Inv) : (hostReset s).Inv := by
  obtain ⟨hwf, hlanes, -, -⟩ := hs
  obtain ⟨-, hw⟩ := (memory_wf_iff s).1 hwf
  refine ⟨(memory_wf_iff _).2 ⟨rfl, fun ln h => ?_⟩, by simpa [hostReset] using hlanes, fun _ => ⟨rfl, rfl⟩,
    nofun⟩
  obtain ⟨ln', hm, rfl⟩ := List.mem_map.1 h
  exact hw ln' hm

theorem hostAct_inv {s t : State} {a : HostAct} (hs : s.Inv) (h : hostAct a s = .next t) : t.Inv := by
  obtain ⟨-, rfl⟩ | ⟨ws, -, -, rfl⟩ | ⟨l, ln, ln', hln, hact, rfl⟩ := hostAct_cases h
  · exact hostReset_inv hs
  · exact hs
  · exact setLane_inv hs (hact.within (inv_within hs hln))

/-! ### The statements -/

/-- Settles O4: the fetch, the instruction it hands over and the host's act each keep the invariant. -/
theorem stepKeepsInvariant : Obligations.StepKeepsInvariant := by
  intro s t hs h
  obtain ⟨i, s', hf, he⟩ | ⟨-, a, rest, -, ha⟩ | ⟨-, -, rfl⟩ := step_cases h
  · exact exec_inv (fetch_inv hs hf) he
  · exact hostAct_inv (s := { s with hostActs := rest }) hs ha
  · exact hs

/-- Settles O16: with `CB_OK = 1` neither a fetch nor an instruction touches the codebook, and of the host's acts only
the reset event does. -/
theorem codebookIsImmutable : Obligations.CodebookIsImmutable := by
  intro s t hc
  have stays : ∀ {t : State}, s.SameBook t → t.cbOk = true ∧ t.cbLen = s.cbLen ∧ t.sMax = s.sMax ∧ t.cb = s.cb :=
    fun ⟨hok, hrest⟩ => ⟨hok.trans hc, hrest⟩
  refine ⟨fun i h => stays (exec_sameBook hc h), fun h => ?_⟩
  obtain ⟨i, s', hf, he⟩ | ⟨-, a, rest, hacts, ha⟩ | ⟨-, -, rfl⟩ := step_cases h
  · have hb := fetch_sameBook hf
    exact .inl (stays (hb.trans (exec_sameBook (hb.1.trans hc) he)))
  · by_cases hr : a = .reset
    · subst hr
      cases ha
      exact .inr ⟨rfl, rest, hacts⟩
    · exact .inl (stays (hostAct_sameBook (s := { s with hostActs := rest }) hr ha))
  · exact .inl (stays ⟨rfl, rfl, rfl, rfl⟩)

/-- Settles O29: the next state is `s.decoded l ln p r`, which changes lane `l` alone. -/
theorem decodeFrame : Obligations.DecodeFrame := by
  intro s t i l hl h
  obtain ⟨ln, p, r, hln, rfl, -⟩ := exec_lane_decoded hl h
  exact ⟨ln, p, r, hln, rfl, fun j hj => lanes_set_ne _ _ hj, rfl, rfl, rfl, rfl, rfl, rfl, rfl, rfl⟩

/-- Settles O31: the position of each of the three ways a decode ends; the sign bit is `GETRUN`'s alone. -/
theorem consumptionIsExact : Obligations.ConsumptionIsExact := by
  refine ⟨fun s t i l hi h => ?_, fun s t len es h => exec_load_lanes h⟩
  obtain ⟨-, ln, hln, hend⟩ := exec_lane_next (isDecode_lane hi) h
  have entry_at {idx e} (hx : s.lookup ln.cursor = .found idx e) : s.entries[idx]? = some e :=
    ((lookup_found_iff s ln.cursor idx e).1 hx).1
  obtain ⟨k, -, rfl⟩ | ⟨idx, e, hx, ⟨hv, rfl⟩ | ⟨g, -, hv, hne, rfl⟩⟩ := hend
  · exact ⟨ln, _, hln, lanes_set_self _ _ _ _ hln, .inr ⟨k, rfl, rfl⟩⟩
  · have hbit : ¬ (i = .getrun l ∧ e.value ≠ 0) := by
      rintro ⟨rfl, hv'⟩
      exact hv.elim hv' nofun
    refine ⟨ln, _, hln, lanes_set_self _ _ _ _ hln, .inl ⟨idx, e, _, _, _, entry_at hx, rfl, ?_⟩⟩
    rw [if_neg hbit, Nat.add_zero]
  · have hbit : i = .getrun l ∧ e.value ≠ 0 := by
      cases hi with
      | getrlv => exact absurd rfl hne
      | getrun => exact ⟨rfl, hv⟩
    refine ⟨ln, _, hln, lanes_set_self _ _ _ _ hln, .inl ⟨idx, e, _, _, _, entry_at hx, rfl, ?_⟩⟩
    rw [if_pos hbit]

/-- Settles O32: `LOAD` touches no lane, and a decode or symbol moves its own lane's cursor forward within the
stream. -/
theorem positionsOnlyMoveForward : Obligations.PositionsOnlyMoveForward := by
  intro s t i l ln h hln
  cases hl : i.lane? with
  | none =>
    obtain ⟨len, es, rfl⟩ := (lane_eq_none_iff i).1 hl
    exact ⟨ln, exec_load_lanes h ▸ hln, rfl, le_rfl, id⟩
  | some j =>
    obtain ⟨lnj, p, r, hlnj, rfl, hfwd, hin⟩ := exec_lane_decoded hl h
    by_cases hj : l = j
    · subst hj
      obtain rfl : lnj = ln := Option.some.inj (hlnj.symm.trans hln)
      exact ⟨_, lanes_set_self _ _ _ _ hln, rfl, hfwd, hin⟩
    · exact ⟨ln, (lanes_set_ne _ _ hj).trans hln, rfl, le_rfl, id⟩

/-- Settles O1: no entry below `CB_LEN = 0` exists, and every lane is fresh. -/
theorem resetHoldsNoCodebook : Obligations.ResetHoldsNoCodebook := by
  refine ⟨⟨_, _, rfl⟩, fun p n store => ⟨rfl, rfl, rfl, ?_, rfl, fun ln h => ?_⟩⟩
  · simp [State.entries, State.resetWith]
  · rw [(List.mem_replicate.1 h).2]
    rfl

end Sys2Proof.Machine

/-! PROOFS. The family 20_memory: the bits a cursor reads, the takes of an instruction, the streams of the lanes under
a step, the independence of the lanes, and the acts of the host. -/

namespace Sys2Proof.Machine

/-! ### What a cursor reads -/

/-- Each bit of a bit string has the weight of its place, the first the largest (20_memory R34). -/
theorem bitsVal_eq_sum (bs : List Bool) :
    bitsVal bs = ∑ j ∈ Finset.range bs.length, (bs.getD j false).toNat * 2 ^ (bs.length - 1 - j) := by
  induction bs with
  | nil => rfl
  | cons b bs ih =>
    rw [bitsVal_cons, ih, List.length_cons, Finset.sum_range_succ', Nat.add_comm]
    simp [Nat.sub_sub, Nat.add_comm 1]

/-- The codeword of an entry stands at the cursor, bit `size - 1` of `bits` first (20_memory R37). -/
theorem cwBits_prefix_rest_iff (e : CodeEntry) (c : Cursor) :
    cwBits e <+: c.rest ↔ ∀ j, j < e.size.toNat →
      c.stream[c.pos + j]? = some (e.bits.toNat.testBit (e.size.toNat - 1 - j)) := by
  simp only [List.prefix_iff_getElem?, cwBits_length, rest_getElem?, cwBits_getElem]
  refine forall₂_congr fun j hj => ?_
  rw [cw_testBit e (by omega)]

/-! ### No instruction takes more bits than remain -/

theorem acceptDecode_ne_overlongTake {s : State} {l : Nat} {k : Lane → Host.Outcome State Fault Refusal}
    (hk : ∀ ln, k ln ≠ .fault .overlongTake) : acceptDecode l s k ≠ .fault .overlongTake := by
  unfold acceptDecode
  split
  · nofun
  · split
    · exact hk _
    · nofun

theorem takeEntry_ne_overlongTake {s : State} {ln : Lane} {i : Nat} {e : CodeEntry}
    (hx : s.lookup ln.cursor = .found i e) (l : Nat) : takeEntry l ln i e s ≠ .fault .overlongTake := by
  rw [takeEntry_of_le (lookup_found_le hx)]
  nofun

theorem takeSigned_ne_overlongTake (l : Nat) (ln : Lane) (i : Nat) (e : CodeEntry) (s : State) :
    takeSigned l ln i e s ≠ .fault .overlongTake := by
  obtain ⟨-, h⟩ | ⟨g, -, h⟩ := takeSigned_cases l ln i e s <;> rw [h] <;> nofun

/-- A symbol takes no more than remains if what it does with a found entry does not. -/
theorem atSymbol_ne_overlongTake {s : State} {l : Nat} {cls : SymClass} {k : List Bool}
    {go : Lane → Nat → CodeEntry → Host.Outcome State Fault Refusal}
    (hgo : ∀ ln i e, s.lookup ln.cursor = .found i e → go ln i e ≠ .fault .overlongTake) :
    atSymbol l cls k s go ≠ .fault .overlongTake := by
  refine acceptDecode_ne_overlongTake fun ln => ?_
  split
  · next i e hx =>
    split
    · exact hgo ln i e hx
    · nofun
  · nofun
  · nofun

theorem execLoad_ne_overlongTake (len : Word) (es : List CodeEntry) (s : State) :
    execLoad len es s ≠ .fault .overlongTake := by
  obtain ⟨-, h⟩ | ⟨-, -, h⟩ | ⟨-, -, h⟩ := execLoad_cases len es s <;> rw [h] <;> nofun

theorem execGetrlv_ne_overlongTake (l : Nat) (s : State) : execGetrlv l s ≠ .fault .overlongTake := by
  refine acceptDecode_ne_overlongTake fun ln => ?_
  split
  · nofun
  · nofun
  · next i e hx => exact takeEntry_ne_overlongTake hx l

theorem execGetrun_ne_overlongTake (l : Nat) (s : State) : execGetrun l s ≠ .fault .overlongTake := by
  refine acceptDecode_ne_overlongTake fun ln => ?_
  split
  · nofun
  · nofun
  · next i e hx =>
    split
    · exact takeEntry_ne_overlongTake hx l
    · exact takeSigned_ne_overlongTake l ln i e s

/-! ### What a step does to the streams -/

/-- Every lane of `s` is in `t`, its stream unchanged or longer (20_memory R31, R46). -/
def State.StreamsGrow (s t : State) : Prop :=
  ∀ (l : Nat) (ln : Lane), s.lanes[l]? = some ln →
    ∃ ln', t.lanes[l]? = some ln' ∧ ln.cursor.stream <+: ln'.cursor.stream

theorem State.StreamsGrow.of_lanes_eq {s t : State} (h : t.lanes = s.lanes) : s.StreamsGrow t :=
  fun _ ln hln => ⟨ln, h ▸ hln, List.prefix_rfl⟩

theorem State.StreamsGrow.trans {s t u : State} (h : s.StreamsGrow t) (h' : t.StreamsGrow u) : s.StreamsGrow u := by
  intro l ln hln
  obtain ⟨ln', hln', hp⟩ := h l ln hln
  obtain ⟨ln'', hln'', hp'⟩ := h' l ln' hln'
  exact ⟨ln'', hln'', hp.trans hp'⟩

theorem setLane_streamsGrow {s : State} {l : Nat} {ln ln' : Lane} (hln : s.lanes[l]? = some ln)
    (hp : ln.cursor.stream <+: ln'.cursor.stream) : s.StreamsGrow (s.setLane l ln') := by
  intro j lnj hlnj
  refine ⟨_, lanes_set_get _ _ _ _ _ hlnj, ?_⟩
  split
  · next hj =>
    subst hj
    obtain rfl : ln = lnj := Option.some.inj (hln.symm.trans hlnj)
    exact hp
  · exact List.prefix_rfl

theorem clearPort_streamsGrow (s : State) (l : Nat) : s.StreamsGrow (s.clearPort l) := by
  rw [clearPort_eq_setLane]
  cases hl : s.lanes[l]? with
  | none => exact .of_lanes_eq rfl
  | some ln => exact setLane_streamsGrow hl List.prefix_rfl

theorem fetch_streamsGrow {s s' : State} {r : Except LoadError Instr} (h : fetch s = some (r, s')) :
    s.StreamsGrow s' := by
  obtain ⟨-, l, op, -, -, rfl⟩ | ⟨-, ws, -, -, rfl⟩ := fetch_cases h
  · exact clearPort_streamsGrow s l
  · exact .of_lanes_eq rfl

/-- An instruction leaves the streams as they are. -/
theorem exec_streamsGrow {s t : State} {i : Instr} (h : exec i s = .next t) : s.StreamsGrow t := by
  intro l ln hln
  obtain ⟨ln', hln', hs, -⟩ := positionsOnlyMoveForward s t i l ln h hln
  exact ⟨ln', hln', hs ▸ List.prefix_rfl⟩

theorem hostReset_streamsGrow (s : State) : s.StreamsGrow (hostReset s) := by
  intro l ln hln
  exact ⟨ln.dropResp, by simp [hostReset, hln], List.prefix_rfl⟩

/-- Of the host's acts on a lane only a fresh cursor replaces the stream (70_reset_and_hazards R142). -/
theorem LaneAct.stream_prefix {l : Nat} {ln ln' : Lane} {a : HostAct} (h : LaneAct l ln a ln') :
    (∃ bits, a = .attach l bits) ∨ ln.cursor.stream <+: ln'.cursor.stream := by
  cases h with
  | issueDecode op _ => exact .inr List.prefix_rfl
  | append bits => exact .inr (List.prefix_append _ _)
  | seek p _ => exact .inr List.prefix_rfl
  | attach bits => exact .inl ⟨bits, rfl⟩

/-- A host act keeps a lane's stream or lengthens it, unless it gives that very lane a fresh cursor. -/
theorem hostAct_stream_prefix {s t : State} {a : HostAct} (h : hostAct a s = .next t) {l : Nat} {ln : Lane}
    (hln : s.lanes[l]? = some ln) :
    (∃ bits, a = .attach l bits) ∨ ∃ ln', t.lanes[l]? = some ln' ∧ ln.cursor.stream <+: ln'.cursor.stream := by
  obtain ⟨rfl, rfl⟩ | ⟨ws, -, -, rfl⟩ | ⟨j, lnj, lnj', hlnj, hact, rfl⟩ := hostAct_cases h
  · exact .inr (hostReset_streamsGrow s l ln hln)
  · exact .inr ⟨ln, hln, List.prefix_rfl⟩
  · by_cases hj : l = j
    · subst hj
      exact hact.stream_prefix.imp_right fun hp => setLane_streamsGrow hlnj hp l ln hln
    · exact .inr ⟨ln, (lanes_set_ne _ _ hj).trans hln, List.prefix_rfl⟩

/-! ### Lanes and acts -/

/-- Decodes that end on different lanes leave the same state in either order (20_memory R43). -/
theorem decoded_comm (s : State) {la lb : Nat} (h : la ≠ lb) (lna lnb : Lane) (pa pb : Nat) (ra rb : Response) :
    (s.decoded la lna pa ra).decoded lb lnb pb rb = (s.decoded lb lnb pb rb).decoded la lna pa ra := by
  simp only [State.decoded, List.set_comm _ _ h]

theorem step_of_fetch_none {s : State} (h : fetch s = none) : step s = hostTurn s := by
  unfold step
  rw [h]

theorem onLane_of_lane {s : State} {l : Nat} {ln : Lane} (h : s.lanes[l]? = some ln)
    (k : Lane → Host.Outcome State Fault Refusal) : onLane l s k = k ln := by
  unfold onLane
  rw [h]

/-! ### The statements -/

/-- Settles O36: each decode reads its own lane and what the other leaves unchanged, so it does the same to its lane
in either order. -/
theorem lanesCommute : Obligations.LanesCommute := by
  intro s sa t a b la lb hne ha hb hsa ht
  obtain ⟨lna, pa, ra, -, rfl, -⟩ := exec_lane_decoded (isDecode_lane ha) hsa
  obtain ⟨lnb, pb, rb, -, rfl, hsb⟩ := decode_transfer (s' := s) hb ht rfl rfl rfl (lanes_set_ne _ _ hne.symm).symm
  obtain ⟨lna', pa', ra', -, heq, ht'⟩ :=
    decode_transfer (s' := s.decoded lb lnb pb rb) ha hsa rfl rfl rfl (lanes_set_ne _ _ hne)
  refine ⟨_, hsb, ?_⟩
  rw [ht', heq, decoded_comm s hne]

/-- Settles O42: `Peek` is the value of the next `k` bits, which is the sum over their places. -/
theorem peekReadsMostSignificantFirst : Obligations.PeekReadsMostSignificantFirst := by
  intro c n k hk
  refine ⟨rfl, Prod.ext hk.symm ?_⟩
  obtain ⟨-, hval, hlen⟩ := peek_cases (c := c) (n := n) (L := k) (w := (c.peek n).2) (by rw [hk]; rfl)
  rw [hval, bitsVal_eq_sum, hlen]
  refine Finset.sum_congr rfl fun j hj => ?_
  rw [List.getD_eq_getElem?_getD, List.getElem?_take_of_lt (Finset.mem_range.1 hj), rest_getElem?,
    List.getD_eq_getElem?_getD]

/-- Settles O44: a found entry lies within the bits that remain, and the sign bit is checked before it is taken. -/
theorem noOverlongTake : Obligations.NoOverlongTake := by
  intro i s
  cases i with
  | load len es => exact execLoad_ne_overlongTake len es s
  | getrlv l => exact execGetrlv_ne_overlongTake l s
  | getrun l => exact execGetrun_ne_overlongTake l s
  | symRun l k => exact atSymbol_ne_overlongTake fun _ _ _ hx => takeEntry_ne_overlongTake hx l
  | symMarker l k => exact atSymbol_ne_overlongTake fun _ _ _ hx => takeEntry_ne_overlongTake hx l
  | symValue l k g =>
    refine atSymbol_ne_overlongTake fun ln i e _ => ?_
    split
    · exact takeSigned_ne_overlongTake l ln i e s
    · nofun

/-- Settles O45: a match is the codeword standing at the cursor, compared bit by bit. -/
theorem matchIsBitByBit : Obligations.MatchIsBitByBit := by
  intro c n L w e h
  rw [← cwBits_prefix_rest_iff]
  constructor
  · intro hm
    exact ⟨hm.1, ((matches_peek_iff h e).1 hm).2⟩
  · rintro ⟨hL, hp⟩
    have hn : L ≤ n := (peek_cases h).1 ▸ min_le_left _ _
    exact (matches_peek_iff h e).2 ⟨hL.trans hn, hp⟩

/-- Settles O54: neither the fetch nor an instruction shortens a stream, and of the host's acts only a fresh cursor
on that lane does. -/
theorem streamOnlyGrows : Obligations.StreamOnlyGrows := by
  intro s t l ln h hln
  obtain ⟨i, s', hf, he⟩ | ⟨-, a, rest, hacts, ha⟩ | ⟨-, -, rfl⟩ := step_cases h
  · exact .inr ((fetch_streamsGrow hf).trans (exec_streamsGrow he) l ln hln)
  · obtain ⟨bits, rfl⟩ | hgrow := hostAct_stream_prefix ha hln
    · exact .inl ⟨bits, rest, hacts⟩
    · exact .inr hgrow
  · exact .inr ⟨ln, hln, List.prefix_rfl⟩

/-- Settles O7: without a fetch the step is the host's turn, and each act on a lane that exists is its update of that
lane. -/
theorem hostActsWhenNoPortIsServed : Obligations.HostActsWhenNoPortIsServed := by
  refine ⟨fun s a rest hf hacts => ?_, fun s ws hp => ?_, fun s l ln hln =>
    ⟨fun op hp => ?_, fun bits => ?_, fun p hp => ?_, fun bits => ?_⟩⟩
  · rw [step_of_fetch_none hf, hostTurn, hacts]
  · rw [hostAct, hostIssueLoad, hp]
  · rw [hostAct, hostIssueDecode, onLane_of_lane hln, hp]
    rfl
  · rw [hostAct, hostAppend, onLane_of_lane hln]
    rfl
  · rw [hostAct, hostSeek, onLane_of_lane hln, if_pos hp]
    rfl
  · rw [hostAct, hostAttach, onLane_of_lane hln]
    rfl

/-- Settles O43: the guard of `Take` decides between its two clauses. -/
theorem takeMovesThePosition : Obligations.TakeMovesThePosition :=
  fun _ _ => ⟨take_of_le, take_of_lt⟩

end Sys2Proof.Machine

/-! PROOFS. The family 30_encoding: the table image of `LOAD`, the symbol that stands at the head of a bit string, what
`GETRUN` and the stream symbols do with it, the don't-care bits, the status codes, and the fetched instruction. -/

namespace Sys2Proof.Machine

/-! ### The table image -/

theorem decodeEntries_flatMap (es : List CodeEntry) : decodeEntries (es.flatMap entryWords) = some es := by
  induction es with
  | nil => rfl
  | cons e es ih => simp [entryWords, decodeEntries, ih]

/-- Words that decode to entries are the words of these entries (30_encoding R51). -/
theorem flatMap_of_decodeEntries {ws : List Word} {es : List CodeEntry} (h : decodeEntries ws = some es) :
    es.flatMap entryWords = ws := by
  induction ws using decodeEntries.induct generalizing es with
  | case1 => cases h; rfl
  | case2 s b c v ws ih =>
    obtain ⟨es', hes', rfl⟩ := Option.map_eq_some_iff.1 h
    rw [List.flatMap_cons, ih hes']
    rfl
  | case3 ws hnil hcons => simp [decodeEntries] at h

/-- Four words each make whole entries. -/
theorem exists_entryWords {m : Nat} {ws : List Word} (h : ws.length = 4 * m) :
    ∃ es : List CodeEntry, es.flatMap entryWords = ws := by
  induction m generalizing ws with
  | zero => exact ⟨[], (List.length_eq_zero_iff.1 h).symm⟩
  | succ m ih =>
    match ws, h with
    | s :: b :: c :: v :: ws, h =>
      obtain ⟨es, rfl⟩ := ih (ws := ws) (by simp only [List.length_cons] at h; omega)
      exact ⟨{ size := s, bits := b, count := c, value := v } :: es, rfl⟩

theorem decodeLoad_entryWords (len : Word) (es : List CodeEntry) :
    decodeLoad (len :: es.flatMap entryWords) = .ok (.load len es) := by
  rw [decodeLoad, decodeEntries_flatMap]

theorem encode_of_decodeLoad {ws : List Word} {i : Instr} (h : decodeLoad ws = .ok i) : encode i = .loadPort ws := by
  unfold decodeLoad at h
  split at h
  · cases h
  · split at h
    · next hes =>
      cases h
      rw [encode, flatMap_of_decodeEntries hes]
    · cases h

/-! ### The symbol at the head of a bit string -/

/-- `SymbolAt l e bits i rest`: `bits` begin with the symbol `i` of lane `l` that the codeword of entry `e` makes, and
`rest` are the bits after it (30_encoding R53). -/
inductive SymbolAt (l : Nat) (e : CodeEntry) : List Bool → Instr → List Bool → Prop where
  | run (rest : List Bool) (hc : classOf e = .run) :
      SymbolAt l e (cwBits e ++ rest) (.symRun l (cwBits e)) rest
  | marker (rest : List Bool) (hc : classOf e = .marker) :
      SymbolAt l e (cwBits e ++ rest) (.symMarker l (cwBits e)) rest
  | value (g : Bool) (rest : List Bool) (hc : classOf e = .value) :
      SymbolAt l e (cwBits e ++ g :: rest) (.symValue l (cwBits e) g) rest

theorem SymbolAt.symbolOf_eq {l : Nat} {e : CodeEntry} {bits rest : List Bool} {i : Instr}
    (h : SymbolAt l e bits i rest) : symbolOf l e bits = .ok (i, rest) := by
  have htake : ∀ tail, (cwBits e ++ tail).take e.size.toNat = cwBits e := fun _ => List.take_left' (cwBits_length e)
  have hdrop : ∀ tail, (cwBits e ++ tail).drop e.size.toNat = tail := fun _ => List.drop_left' (cwBits_length e)
  cases h with
  | run rest hc => simp only [symbolOf, hc, htake, hdrop]
  | marker rest hc => simp only [symbolOf, hc, htake, hdrop]
  | value g rest hc => simp only [symbolOf, hc, htake, hdrop]

/-- Where the codeword of `e` stands, `symbolOf` reads the symbol it makes. -/
theorem symbolAt_of_symbolOf {l : Nat} {e : CodeEntry} {bits rest : List Bool} {i : Instr} (hp : cwBits e <+: bits)
    (h : symbolOf l e bits = .ok (i, rest)) : SymbolAt l e bits i rest := by
  obtain ⟨tail, rfl⟩ := hp
  simp only [symbolOf, List.take_left' (cwBits_length e), List.drop_left' (cwBits_length e)] at h
  split at h
  · next hc => cases h; exact .run _ hc
  · next hc => cases h; exact .marker _ hc
  · next hc =>
    split at h
    · cases h
    · cases h; exact .value _ _ hc

/-- The codeword of a selected entry stands at the cursor. -/
theorem cwBits_prefix_of_selected {cb : List CodeEntry} {n idx : Nat} {c : Cursor} {e : CodeEntry}
    (h : Selected cb (c.peek n).1 (c.peek n).2 idx e) : cwBits e <+: c.rest := by
  obtain ⟨-, hm, -⟩ := h
  exact ((matches_peek_iff rfl e).1 hm).2

/-- What stands at a cursor decodes to the symbol that the entry found there makes (30_encoding R53, R54). -/
theorem decodeSymbol_rest_ok_iff (cb : List CodeEntry) (n l : Nat) (c : Cursor) (i : Instr) (rest : List Bool) :
    decodeSymbol cb n l c.rest = .ok (i, rest) ↔
      ∃ idx e, Selected cb (c.peek n).1 (c.peek n).2 idx e ∧ SymbolAt l e c.rest i rest := by
  simp only [decodeSymbol, rest_length]
  rw [← peek_snd, ← peek_fst]
  constructor
  · intro h
    split at h
    · next idx e hx =>
      have hsel := (lookupIn_found_iff ..).1 hx
      exact ⟨idx, e, hsel, symbolAt_of_symbolOf (cwBits_prefix_of_selected hsel) h⟩
    · cases h
    · cases h
  · rintro ⟨idx, e, hsel, hat⟩
    rw [(lookupIn_found_iff ..).2 hsel]
    exact hat.symbolOf_eq

/-- On a prefix-free codebook the symbol of any entry decodes, whatever bits follow it (30_encoding R61). -/
theorem decodeSymbol_of_symbolAt {cb : List CodeEntry} (hpf : PrefixFree cb) {l : Nat} {e : CodeEntry} (he : e ∈ cb)
    {bits rest : List Bool} {i : Instr} (h : SymbolAt l e bits i rest) :
    decodeSymbol cb (maxSize cb) l bits = .ok (i, rest) := by
  obtain ⟨idx, hidx⟩ := List.mem_iff_getElem?.1 he
  have hp : cwBits e <+: bits := by cases h <;> exact List.prefix_append _ _
  exact (decodeSymbol_rest_ok_iff cb _ l { stream := bits, pos := 0 } i rest).2
    ⟨idx, e, selected_of_prefixFree hpf hidx (le_maxSize he) hp, h⟩

theorem decode_stream_of_symbolAt {cb : List CodeEntry} (hpf : PrefixFree cb) {l : Nat} {e : CodeEntry} (he : e ∈ cb)
    {bits rest : List Bool} {i : Instr} (h : SymbolAt l e bits i rest) : decode cb (.stream l bits) = .ok i := by
  rw [decode, decodeSymbol_of_symbolAt hpf he h]
  rfl

/-- The bits of a symbol are its image and the bits after it (30_encoding R53). -/
theorem SymbolAt.encode_append {l : Nat} {e : CodeEntry} {bits rest : List Bool} {i : Instr}
    (h : SymbolAt l e bits i rest) : ∃ front, encode i = .stream l front ∧ front ++ rest = bits := by
  cases h with
  | run => exact ⟨_, rfl, rfl⟩
  | marker => exact ⟨_, rfl, rfl⟩
  | value => exact ⟨_, rfl, by simp⟩

/-! ### A symbol under `GETRUN` and on its own -/

section Found

variable {s : State} {l idx : Nat} {ln : Lane} {e : CodeEntry} (hc : s.cbOk = true) (hl : s.lanes[l]? = some ln)
  (hx : s.lookup ln.cursor = .found idx e)
include hc hl hx

theorem exec_getrun_of_found :
    exec (.getrun l) s = if e.value = 0 then takeEntry l ln idx e s else takeSigned l ln idx e s := by
  rw [exec, execGetrun, acceptDecode_of_open hc hl, hx]

theorem exec_symRun_of_found (hcl : classOf e = .run) : exec (.symRun l (cwBits e)) s = takeEntry l ln idx e s :=
  atSymbol_of_found hc hl hx hcl rfl _

theorem exec_symMarker_of_found (hcl : classOf e = .marker) :
    exec (.symMarker l (cwBits e)) s = takeEntry l ln idx e s :=
  atSymbol_of_found hc hl hx hcl rfl _

theorem exec_symValue_of_found (hcl : classOf e = .value) {g : Bool}
    (hg : ln.cursor.stream[ln.cursor.pos + e.size.toNat]? = some g) :
    exec (.symValue l (cwBits e) g) s = takeSigned l ln idx e s := by
  rw [exec, execSymValue, atSymbol_of_found hc hl hx hcl rfl, if_pos (by rwa [rest_getElem?])]

/-- The symbol that stands at the cursor does what `GETRUN` does there, and ends at the bits after it. -/
theorem exec_of_symbolAt {i : Instr} {rest : List Bool} (h : SymbolAt l e ln.cursor.rest i rest) :
    exec (.getrun l) s = exec i s ∧
      ∃ p r, exec i s = .next (s.decoded l ln p r) ∧ ln.cursor.stream.drop p = rest := by
  have hafter : ∀ n, ln.cursor.stream.drop (ln.cursor.pos + n) = ln.cursor.rest.drop n := by
    simp [Cursor.rest]
  rw [exec_getrun_of_found hc hl hx]
  generalize hbits : ln.cursor.rest = bits at h hafter
  cases h with
  | run _ hcl =>
    rw [exec_symRun_of_found hc hl hx hcl, if_pos (value_eq_zero_of_classOf (by simp [hcl]))]
    exact ⟨rfl, _, _, takeEntry_of_le (lookup_found_le hx) l idx s, by rw [hafter, List.drop_left' (cwBits_length e)]⟩
  | marker _ hcl =>
    rw [exec_symMarker_of_found hc hl hx hcl, if_pos (value_eq_zero_of_classOf (by simp [hcl]))]
    exact ⟨rfl, _, _, takeEntry_of_le (lookup_found_le hx) l idx s, by rw [hafter, List.drop_left' (cwBits_length e)]⟩
  | value g _ hcl =>
    have hg : ln.cursor.stream[ln.cursor.pos + e.size.toNat]? = some g := by
      rw [← rest_getElem?, hbits, List.getElem?_append_right (by simp)]
      simp
    rw [exec_symValue_of_found hc hl hx hcl hg, if_neg (value_ne_zero_of_classOf hcl)]
    refine ⟨rfl, _, _, takeSigned_of_bit hg l idx s, ?_⟩
    rw [Nat.add_assoc, hafter, ← List.drop_drop, List.drop_left' (cwBits_length e)]
    rfl

end Found

/-- The codeword of a found entry stands at the cursor. -/
theorem cwBits_append_of_found {s : State} {c : Cursor} {idx : Nat} {e : CodeEntry} (hx : s.lookup c = .found idx e) :
    cwBits e ++ c.rest.drop e.size.toNat = c.rest := by
  have hp : cwBits e <+: c.rest := cwBits_prefix_of_selected ((lookup_found_iff s c idx e).1 hx)
  have htake := List.prefix_iff_eq_take.1 hp
  rw [cwBits_length] at htake
  rw [htake, List.take_append_drop]

/-- A symbol that runs stands at the cursor of its lane (30_encoding R53). -/
theorem symbolAt_of_exec {s t : State} {l : Nat} {i : Instr} {k : List Bool} {g : Bool}
    (hi : i = .symRun l k ∨ i = .symMarker l k ∨ i = .symValue l k g) (h : exec i s = .next t) :
    s.cbOk = true ∧ ∃ ln idx e rest, s.lanes[l]? = some ln ∧ s.lookup ln.cursor = .found idx e ∧
      SymbolAt l e ln.cursor.rest i rest := by
  obtain rfl | rfl | rfl := hi
  · obtain ⟨hc, ln, idx, e, hln, hx, hcl, rfl, -⟩ := atSymbol_next h
    have hat := SymbolAt.run (l := l) (ln.cursor.rest.drop e.size.toNat) hcl
    rw [cwBits_append_of_found hx] at hat
    exact ⟨hc, ln, idx, e, _, hln, hx, hat⟩
  · obtain ⟨hc, ln, idx, e, hln, hx, hcl, rfl, -⟩ := atSymbol_next h
    have hat := SymbolAt.marker (l := l) (ln.cursor.rest.drop e.size.toNat) hcl
    rw [cwBits_append_of_found hx] at hat
    exact ⟨hc, ln, idx, e, _, hln, hx, hat⟩
  · obtain ⟨hc, ln, idx, e, hln, hx, hcl, rfl, hgo⟩ := atSymbol_next h
    split at hgo
    · next hg =>
      obtain ⟨hlt, rfl⟩ := List.getElem?_eq_some_iff.1 hg
      have hat := SymbolAt.value (l := l) ln.cursor.rest[e.size.toNat] (ln.cursor.rest.drop (e.size.toNat + 1)) hcl
      rw [← List.drop_eq_getElem_cons hlt, cwBits_append_of_found hx] at hat
      exact ⟨hc, ln, idx, e, _, hln, hx, hat⟩
    · cases hgo

/-! ### The prefix relation -/

/-- A codeword starts another when it is not longer and each of its bits is the other's in stream order
(30_encoding R55, 20_memory R37). -/
theorem cwBits_prefix_cwBits_iff (a b : CodeEntry) : cwBits a <+: cwBits b ↔ a.size.toNat ≤ b.size.toNat ∧
    ∀ j, j < a.size.toNat →
      a.bits.toNat.testBit (a.size.toNat - 1 - j) = b.bits.toNat.testBit (b.size.toNat - 1 - j) := by
  simp only [List.prefix_iff_getElem, cwBits_length, cwBits_getElem, exists_prop]
  refine and_congr_right fun hle => forall₂_congr fun j hj => ?_
  rw [cw_testBit a (by omega), cw_testBit b (by omega)]

/-! ### Don't-care bits -/

/-- Two entries with the same size, data fields and codeword: they differ in no bit of `bits` below `size`
(30_encoding R52). -/
def SameCode (a b : CodeEntry) : Prop :=
  a.size = b.size ∧ a.count = b.count ∧ a.value = b.value ∧
    a.bits.toNat % 2 ^ a.size.toNat = b.bits.toNat % 2 ^ b.size.toNat

theorem SameCode.size_eq {a b : CodeEntry} (h : SameCode a b) : a.size = b.size := h.1

theorem SameCode.count_eq {a b : CodeEntry} (h : SameCode a b) : a.count = b.count := h.2.1

theorem SameCode.value_eq {a b : CodeEntry} (h : SameCode a b) : a.value = b.value := h.2.2.1

theorem SameCode.symm {a b : CodeEntry} (h : SameCode a b) : SameCode b a := by
  obtain ⟨hs, hc, hv, hb⟩ := h
  exact ⟨hs.symm, hc.symm, hv.symm, hb.symm⟩

theorem SameCode.cwBits_eq {a b : CodeEntry} (h : SameCode a b) : cwBits a = cwBits b := by
  obtain ⟨hs, -, -, hb⟩ := h
  simp only [cwBits, cw, hb]
  rw [hs]

theorem SameCode.classOf_eq {a b : CodeEntry} (h : SameCode a b) : classOf a = classOf b := by
  simp only [classOf, h.count_eq, h.value_eq]

theorem SameCode.matches_iff {a b : CodeEntry} (h : SameCode a b) (L w : Nat) : Matches L w a ↔ Matches L w b := by
  obtain ⟨hs, -, -, hb⟩ := h
  simp only [Matches, hb]
  rw [hs]

/-- Codebooks whose entries agree index by index. -/
abbrev SameCodes (cb cb' : List CodeEntry) : Prop := List.Forall₂ SameCode cb cb'

theorem SameCodes.symm {cb cb' : List CodeEntry} (h : SameCodes cb cb') : SameCodes cb' cb :=
  (h.imp fun _ _ hab => hab.symm).flip

theorem SameCodes.getElem? {cb cb' : List CodeEntry} (h : SameCodes cb cb') {i : Nat} {a : CodeEntry}
    (ha : cb[i]? = some a) : ∃ b, cb'[i]? = some b ∧ SameCode a b := by
  obtain ⟨hi, rfl⟩ := List.getElem?_eq_some_iff.1 ha
  have hi' : i < cb'.length := h.length_eq ▸ hi
  exact ⟨cb'[i], List.getElem?_eq_getElem hi', h.get hi hi'⟩

/-- The selection of R90 reads sizes and codewords alone. -/
theorem SameCodes.selected {cb cb' : List CodeEntry} (h : SameCodes cb cb') {L w i : Nat} {a : CodeEntry}
    (hs : Selected cb L w i a) : ∃ b, Selected cb' L w i b ∧ SameCode a b := by
  obtain ⟨hi, hm, hmax⟩ := hs
  obtain ⟨b, hi', hab⟩ := h.getElem? hi
  refine ⟨b, ⟨hi', (hab.matches_iff L w).1 hm, fun j f hj hf => ?_⟩, hab⟩
  obtain ⟨f', hj', hff⟩ := h.symm.getElem? hj
  have hle := hmax j f' hj' ((hff.matches_iff L w).1 hf)
  rwa [← hff.size_eq, hab.size_eq] at hle

theorem SameCodes.noMatch {cb cb' : List CodeEntry} (h : SameCodes cb cb') {L w : Nat} (hn : NoMatch cb L w) :
    NoMatch cb' L w := by
  intro f hf hm
  obtain ⟨j, hj⟩ := List.mem_iff_getElem?.1 hf
  obtain ⟨a, ha, hfa⟩ := h.symm.getElem? hj
  exact hn a (List.mem_of_getElem? ha) ((hfa.matches_iff L w).1 hm)

/-- The block with another store. -/
abbrev State.withStore (s : State) (cb' : List CodeEntry) : State := { s with cb := cb' }

/-- A lookup answers the same under both codebooks, up to don't-care bits of the entry found. -/
theorem SameCodes.lookup_cases {s : State} {cb' : List CodeEntry} (h : SameCodes s.cb cb') (c : Cursor) :
    (∃ i a b, s.lookup c = .found i a ∧ (s.withStore cb').lookup c = .found i b ∧ SameCode a b) ∨
    (s.lookup c = .exhausted ∧ (s.withStore cb').lookup c = .exhausted) ∨
    (s.lookup c = .unmatched ∧ (s.withStore cb').lookup c = .unmatched) := by
  have he : SameCodes s.entries (s.withStore cb').entries := List.forall₂_take _ h
  obtain ⟨i, a, hsel⟩ | hn := selected_or_noMatch s.entries (c.peek s.sMax.toNat).1 (c.peek s.sMax.toNat).2
  · obtain ⟨b, hsel', hab⟩ := he.selected hsel
    exact .inl ⟨i, a, b, (lookup_found_iff ..).2 hsel, (lookup_found_iff ..).2 hsel', hab⟩
  · rw [lookup_of_noMatch rfl hn, lookup_of_noMatch rfl (he.noMatch hn)]
    split
    · exact .inr (.inl ⟨rfl, rfl⟩)
    · exact .inr (.inr ⟨rfl, rfl⟩)

section WithStore

variable {s : State} {cb' : List CodeEntry}

theorem acceptDecode_withStore {k k' : Lane → Host.Outcome State Fault Refusal}
    (h : ∀ ln, k' ln = onNext (·.withStore cb') (k ln)) (l : Nat) :
    acceptDecode l (s.withStore cb') k' = onNext (·.withStore cb') (acceptDecode l s k) := by
  unfold acceptDecode
  simp only [h]
  cases s.lanes[l]? with
  | none => rfl
  | some ln => cases s.cbOk <;> rfl

theorem takeEntry_withStore {a b : CodeEntry} (h : SameCode a b) (l : Nat) (ln : Lane) (i : Nat) :
    takeEntry l ln i b (s.withStore cb') = onNext (·.withStore cb') (takeEntry l ln i a s) := by
  simp only [takeEntry, markerOf, h.size_eq, h.count_eq, h.value_eq]
  cases ln.cursor.take b.size.toNat <;> rfl

theorem takeSigned_withStore {a b : CodeEntry} (h : SameCode a b) (l : Nat) (ln : Lane) (i : Nat) :
    takeSigned l ln i b (s.withStore cb') = onNext (·.withStore cb') (takeSigned l ln i a s) := by
  have hs := h.size_eq
  obtain ⟨hr, ha⟩ | ⟨g, hg, ha⟩ := takeSigned_cases l ln i a s
  · rw [ha, takeSigned_of_missing (hs ▸ hr)]
    rfl
  · rw [ha, takeSigned_of_bit (hs ▸ hg), h.count_eq, h.value_eq, hs]
    rfl

theorem atSymbol_withStore (h : SameCodes s.cb cb')
    {go go' : Lane → Nat → CodeEntry → Host.Outcome State Fault Refusal}
    (hgo : ∀ ln i a b, SameCode a b → go' ln i b = onNext (·.withStore cb') (go ln i a)) (l : Nat) (cls : SymClass)
    (k : List Bool) :
    atSymbol l cls k (s.withStore cb') go' = onNext (·.withStore cb') (atSymbol l cls k s go) := by
  refine acceptDecode_withStore (fun ln => ?_) l
  obtain ⟨i, a, b, ha, hb, hab⟩ | ⟨ha, hb⟩ | ⟨ha, hb⟩ := h.lookup_cases ln.cursor
  · simp only [ha, hb, hgo ln i a b hab, hab.classOf_eq, hab.cwBits_eq]
    split <;> rfl
  all_goals
    rw [ha, hb]
    rfl

theorem execGetrlv_withStore (h : SameCodes s.cb cb') (l : Nat) :
    execGetrlv l (s.withStore cb') = onNext (·.withStore cb') (execGetrlv l s) := by
  refine acceptDecode_withStore (fun ln => ?_) l
  obtain ⟨i, a, b, ha, hb, hab⟩ | ⟨ha, hb⟩ | ⟨ha, hb⟩ := h.lookup_cases ln.cursor
  · rw [ha, hb]
    exact takeEntry_withStore hab l ln i
  all_goals
    rw [ha, hb]
    rfl

theorem execGetrun_withStore (h : SameCodes s.cb cb') (l : Nat) :
    execGetrun l (s.withStore cb') = onNext (·.withStore cb') (execGetrun l s) := by
  refine acceptDecode_withStore (fun ln => ?_) l
  obtain ⟨i, a, b, ha, hb, hab⟩ | ⟨ha, hb⟩ | ⟨ha, hb⟩ := h.lookup_cases ln.cursor
  · simp only [ha, hb, hab.value_eq, takeEntry_withStore hab, takeSigned_withStore hab]
    split <;> rfl
  all_goals
    rw [ha, hb]
    rfl

theorem execSymValue_withStore (h : SameCodes s.cb cb') (l : Nat) (k : List Bool) (g : Bool) :
    execSymValue l k g (s.withStore cb') = onNext (·.withStore cb') (execSymValue l k g s) := by
  refine atSymbol_withStore h (fun ln i a b hab => ?_) l .value k
  simp only [hab.size_eq, takeSigned_withStore hab]
  split <;> rfl

end WithStore

/-! ### The fetched instruction -/

/-- With `CB_OK = 0` the load port's transaction is served (40_codebook_load R71). -/
theorem fetch_load {s : State} {ws : List Word} (hc : s.cbOk = false) (hp : s.loadPort = some ws) :
    fetch s = some (decodeLoad ws, { s with loadPort := none }) := by
  simp [fetch, hc, hp]

/-- With `CB_OK = 1` the command of the lowest waiting lane is served (41_matcher R86). -/
theorem fetch_decode {s : State} {l : Nat} {ln : Lane} {op : BitVec 1} (hc : s.cbOk = true)
    (hl : s.lanes[l]? = some ln) (hp : ln.port = some op)
    (hlow : ∀ (j : Nat) (ln' : Lane), j < l → s.lanes[j]? = some ln' → ln'.port = none) :
    fetch s = some (.ok (decodeOp l op), s.setLane l { ln with port := none }) := by
  simp [fetch, hc, firstWaiting_of_lowest hl hp hlow, clearPort_eq_setLane, hl]

theorem step_of_fetch_ok {s s' : State} {i : Instr} (h : fetch s = some (.ok i, s')) : step s = exec i s' := by
  rw [step, h]

/-! ### The statements -/

/-- Settles O51: an image at a port is read back by its decoder; a symbol stands at the head of its stream, where
its entry is the one selected, the codebook being prefix-free. -/
theorem decodeEncodeAgree : Obligations.DecodeEncodeAgree := by
  intro nLanes cb i more hpf _ _ hbook
  cases i with
  | load len es =>
    show (decodeLoad (len :: es.flatMap entryWords)).mapError _ = _
    rw [decodeLoad_entryWords]
    rfl
  | getrlv l => rfl
  | getrun l => rfl
  | symRun l k =>
    obtain ⟨e, he, hv, hcount, rfl⟩ := hbook
    exact decode_stream_of_symbolAt hpf he (.run more (classOf_of_run hv hcount))
  | symMarker l k =>
    obtain ⟨e, he, hv, hcount, rfl⟩ := hbook
    exact decode_stream_of_symbolAt hpf he (.marker more (classOf_of_marker hv hcount))
  | symValue l k g =>
    obtain ⟨e, he, hv, rfl⟩ := hbook
    show decode cb (.stream l (cwBits e ++ [g] ++ more)) = _
    rw [List.append_assoc]
    exact decode_stream_of_symbolAt hpf he (.value g more (classOf_of_value hv))

/-- Settles O25: the found run entry is taken, and its value is 0. -/
theorem symRunCompletes : Obligations.SymRunCompletes := by
  intro s l ln L w i e hc hl hp hsel hv hcount
  have hx := lookup_of_selected hp hsel
  rw [exec_symRun_of_found hc hl hx (classOf_of_run hv hcount), takeEntry_of_le (lookup_found_le hx), markerOf_eq,
    decide_eq_false fun h => hcount h.1, hv]

/-- Settles O26: the found marker entry is taken, and its count and value are 0. -/
theorem symMarkerCompletes : Obligations.SymMarkerCompletes := by
  intro s l ln L w i e hc hl hp hsel hv hcount
  have hx := lookup_of_selected hp hsel
  rw [exec_symMarker_of_found hc hl hx (classOf_of_marker hv hcount), takeEntry_of_le (lookup_found_le hx),
    markerOf_eq, decide_eq_true ⟨hcount, hv⟩, hcount, hv]

/-- Settles O27: the found value entry is taken with the bit after its codeword as its sign. -/
theorem symValueCompletes : Obligations.SymValueCompletes := by
  intro s l ln L w i e g hc hl hp hsel hv hg
  rw [exec_symValue_of_found hc hl (lookup_of_selected hp hsel) (classOf_of_value hv) hg, takeSigned_of_bit hg]
  rfl

/-- Settles O28: to decode as a symbol and to run as one are both to stand at the cursor. -/
theorem getrunRunsTheSymbolAtTheCursor : Obligations.GetrunRunsTheSymbolAtTheCursor := by
  refine ⟨fun s l ln i rest hc hl hdec => ?_, fun s t l i k g hi h => ?_⟩
  · obtain ⟨idx, e, hsel, hat⟩ := (decodeSymbol_rest_ok_iff ..).1 hdec
    obtain ⟨hrun, p, r, hexec, hrest⟩ := exec_of_symbolAt hc hl ((lookup_found_iff ..).2 hsel) hat
    exact ⟨_, _, hrun.trans hexec, hexec, lanes_set_self _ _ _ _ hl, hrest⟩
  · obtain ⟨hc, ln, idx, e, rest, hl, hx, hat⟩ := symbolAt_of_exec hi h
    exact ⟨(exec_of_symbolAt hc hl hx hat).1.trans h, ln, rest, hl,
      (decodeSymbol_rest_ok_iff ..).2 ⟨idx, e, (lookup_found_iff ..).1 hx, hat⟩⟩

/-- Settles O35: selection reads sizes and codewords, and what is reported reads sizes and data fields. -/
theorem dontCareBitsAreIgnored : Obligations.DontCareBitsAreIgnored := by
  intro s cb' i l hl h
  have hcodes : SameCodes s.cb cb' := h
  cases i with
  | load len es => cases hl
  | getrlv l => exact execGetrlv_withStore hcodes l
  | getrun l => exact execGetrun_withStore hcodes l
  | symRun l k => exact atSymbol_withStore hcodes (fun ln i _ _ hab => takeEntry_withStore hab l ln i) l .run k
  | symMarker l k => exact atSymbol_withStore hcodes (fun ln i _ _ hab => takeEntry_withStore hab l ln i) l .marker k
  | symValue l k g => exact execSymValue_withStore hcodes l k g

/-- Settles O39: a `LOAD` ends `OK` or with `MalformedCodebook`, a decode with a result or with one of the two other
error kinds. -/
theorem statusCodesByOperation : Obligations.StatusCodesByOperation := by
  refine ⟨fun s t len es h => ?_, fun s t i l hl h => ?_⟩
  · obtain ⟨-, ⟨-, rfl⟩ | ⟨-, rfl⟩⟩ := exec_load_next h
    · exact ⟨_, rfl, .inl rfl⟩
    · exact ⟨_, rfl, .inr rfl⟩
  · obtain ⟨-, ln, hln, ⟨k, hk, rfl⟩ | ⟨idx, e, -, ⟨-, rfl⟩ | ⟨g, -, -, -, rfl⟩⟩⟩ := exec_lane_next hl h
    · refine ⟨_, _, lanes_set_self _ _ _ _ hln, rfl, .inr ?_⟩
      cases k with
      | malformedCodebook => exact absurd rfl hk
      | bitstreamExhausted => exact .inl rfl
      | unmatchedCodeword => exact .inr rfl
    · exact ⟨_, _, lanes_set_self _ _ _ _ hln, rfl, .inl rfl⟩
    · exact ⟨_, _, lanes_set_self _ _ _ _ hln, rfl, .inl rfl⟩

/-- Settles O46: both sides are the prefix relation of the two codewords as bit strings. -/
theorem prefixRelationOnBits : Obligations.PrefixRelationOnBits := by
  refine ⟨fun a b => ?_, fun es => ?_⟩
  · rw [bitPrefix_iff_isPrefix, cwBits_prefix_cwBits_iff]
  · simp only [prefixFree_iff_forall, PrefixFree, bitPrefix_iff_isPrefix]

/-- Settles O52: the decoder of table images and the words of an entry are inverse to each other. -/
theorem loadImageKeepsEveryWord : Obligations.LoadImageKeepsEveryWord := by
  refine ⟨fun ws i h => encode_of_decodeLoad h, fun ws => ⟨fun ⟨i, h⟩ => ?_, fun ⟨m, h⟩ => ?_⟩⟩
  · obtain ⟨len, es, rfl⟩ := decodeLoad_ok h
    have hwidth := Laws.ImageWidth.load len es
    rw [Laws.ImageWidth.Statement, encode_of_decodeLoad h] at hwidth
    exact ⟨es.length, Nat.eq_of_mul_eq_mul_left (by decide) hwidth⟩
  · match ws, h with
    | [], h => simp only [List.length_nil] at h; omega
    | len :: ws, h =>
      obtain ⟨es, rfl⟩ := exists_entryWords (m := m) (ws := ws) (by simp only [List.length_cons] at h; omega)
      exact ⟨_, decodeLoad_entryWords len es⟩

/-- Settles O53: the symbol read from bits is one that stands at their head. -/
theorem symbolKeepsEveryBit : Obligations.SymbolKeepsEveryBit := by
  intro cb sMax l bits rest i h
  obtain ⟨idx, e, -, hat⟩ := (decodeSymbol_rest_ok_iff cb sMax l { stream := bits, pos := 0 } i rest).1 h
  exact hat.encode_append

/-- Settles O5: the fetch takes the transaction off its port and hands its decoding over. -/
theorem stepRunsTheDecodedInstruction : Obligations.StepRunsTheDecodedInstruction := by
  refine ⟨fun s ws i hc hp hdec => ?_, fun s l ln op hc hl hp hlow => ?_⟩
  · exact step_of_fetch_ok (by rw [fetch_load hc hp, hdec])
  · exact step_of_fetch_ok (fetch_decode hc hl hp hlow)

/-- Settles O49: the classes by their data fields, each the only one that has them. -/
theorem classesPartitionEntries : Obligations.ClassesPartitionEntries := by
  intro e
  have hpos : 1 ≤ e.count.toNat ↔ ¬ e.count = 0 := by
    rw [Nat.one_le_iff_ne_zero, ne_eq, ← BitVec.toNat_inj]
    rfl
  simp only [hpos, ne_eq]
  by_cases hv : e.value = 0
  · by_cases hcount : e.count = 0
    · simp only [classOf_of_marker hv hcount, hv, hcount, reduceCtorEq, not_true_eq_false, and_false, and_self]
    · simp only [classOf_of_run hv hcount, hv, hcount, reduceCtorEq, not_true_eq_false, not_false_eq_true, and_false,
        and_self]
  · simp only [classOf_of_value hv, hv, reduceCtorEq, not_false_eq_true, false_and, and_self]

/-- Settles O50: closed words, each read by the decoder. -/
theorem specWordsDecode : Obligations.SpecWordsDecode := by
  unfold Obligations.SpecWordsDecode
  decide

end Sys2Proof.Machine

/-! PROOFS. The family 40_codebook_load: when `LOAD` and the decodes are accepted, what `LOAD` stores and what it
rejects, and what of a table its verdict reads. First the three answers of `LOAD`, then the statements. -/

namespace Sys2Proof.Machine

/-! ### Acceptance -/

/-- A decode on a lane of the block has no step without a codebook (41_matcher R86, 42_rundecoder R101). -/
theorem acceptDecode_of_closed {s : State} {l : Nat} (h : s.cbOk = false) (hl : l < s.lanes.length)
    (k : Lane → Host.Outcome State Fault Refusal) : acceptDecode l s k = .fault .decodeNotAccepted := by
  simp [acceptDecode, List.getElem?_eq_getElem hl, h]

/-- Every decode and symbol asks for acceptance first. -/
theorem exec_lane_of_closed {s : State} {i : Instr} {l : Nat} (h : s.cbOk = false) (hi : i.lane? = some l)
    (hl : l < s.lanes.length) : exec i s = .fault .decodeNotAccepted := by
  cases i with
  | load len es => cases hi
  | getrlv _ | getrun _ | symRun _ _ | symMarker _ _ | symValue _ _ _ =>
    cases hi
    exact acceptDecode_of_closed h hl _

/-! ### The three answers of `LOAD` -/

section Load

variable {s : State} {len : Word} {es : List CodeEntry}

theorem exec_load_of_loaded (h : s.cbOk = true) : exec (.load len es) s = .fault .loadNotAccepted := by
  simp [exec, execLoad, h]

theorem exec_load_of_tableOk (h : s.cbOk = false) (hok : tableOk s.cfg len es = true) :
    exec (.load len es) s = .next (s.accept len es) := by
  simp [exec, execLoad, h, hok]

theorem exec_load_of_not_tableOk (h : s.cbOk = false) (hbad : tableOk s.cfg len es = false) :
    exec (.load len es) s = .next { s with ldResp := some (.error .malformedCodebook) } := by
  simp [exec, execLoad, h, hbad, raiseMalformed]

/-- `LOAD` overwrites the response of the `LOAD` before it and does not read it. -/
theorem exec_load_ignores_ldResp (r : Option LoadResponse) :
    exec (.load len es) { s with ldResp := r } = exec (.load len es) s := rfl

/-- The response of an accepted `LOAD` is the verdict of R72 to R76. -/
theorem exec_load_ldResp : (nextState (exec (.load len es) s)).map State.ldResp =
    if s.cbOk then none else some (some (if tableOk s.cfg len es then .ok else .error .malformedCodebook)) := by
  cases hc : s.cbOk with
  | true => rw [exec_load_of_loaded hc]; rfl
  | false =>
    cases hok : tableOk s.cfg len es with
    | true => rw [exec_load_of_tableOk hc hok]; rfl
    | false => rw [exec_load_of_not_tableOk hc hok]; rfl

end Load

/-- A codebook of exactly `CB_LEN` entries is all of the store. -/
theorem entries_eq_cb {s : State} (h : s.cb.length = s.cbLen.toNat) : s.entries = s.cb := by
  rw [State.entries, ← h, List.take_length]

theorem entries_of_cbLen_zero {s : State} (h : s.cbLen = 0) : s.entries = [] := by
  simp [State.entries, h]

/-! ### What the verdict reads -/

/-- The size and the low bits of `bits` make the codeword (30_encoding R52). -/
theorem cwBits_congr {a b : CodeEntry} (hs : a.size = b.size)
    (hb : a.bits.toNat % 2 ^ a.size.toNat = b.bits.toNat % 2 ^ b.size.toNat) : cwBits a = cwBits b :=
  bitsVal_inj (by simp [hs]) (by simpa [cw] using hb)

/-- The checks R72 to R76 in terms of the codewords as bit strings alone. -/
theorem tableOk_iff_codewords (p : Config.Params) (len : Word) (es : List CodeEntry) :
    tableOk p len es = true ↔ len.toNat = (es.map cwBits).length ∧ len ≠ 0 ∧ len.toNat ≤ p.nMax ∧
      (∀ k ∈ es.map cwBits, 1 ≤ k.length ∧ k.length ≤ 32) ∧
      (p.validatePrefixFree = true → (es.map cwBits).Pairwise fun k k' => ¬ k <+: k' ∧ ¬ k' <+: k) := by
  simp only [tableOk_iff, ← prefixFree_iff_forall, prefixFree_iff_pairwise, bitPrefix_iff_isPrefix, LegalSize,
    List.length_map, List.forall_mem_map, cwBits_length, List.pairwise_map]

/-- The checks do not read the order of the codewords: the relation of R76 is symmetric (40_codebook_load R80). -/
theorem tableOk_congr {es es' : List CodeEntry} (h : (es.map cwBits).Perm (es'.map cwBits)) (p : Config.Params)
    (len : Word) : tableOk p len es = tableOk p len es' := by
  have hpair := h.pairwise_iff (R := fun k k' => ¬ k <+: k' ∧ ¬ k' <+: k) And.symm
  rw [Bool.eq_iff_iff, tableOk_iff_codewords, tableOk_iff_codewords, h.length_eq, hpair]
  simp only [h.mem_iff]

/-! ### The statements -/

/-- Settles O11: no check fires, so the table is accepted; a table that is not empty has an entry of the largest
size, and legal sizes fit `S_MAX`. -/
theorem loadStoresTheTable : Obligations.LoadStoresTheTable := by
  intro s len es hc hlen hne hmax hsize hpf
  have hok : tableOk s.cfg len es = true := (tableOk_iff ..).2 ⟨hlen, hne, hmax, hsize, hpf⟩
  have hes : es ≠ [] := by
    rintro rfl
    exact hne (BitVec.eq_of_toNat_eq hlen)
  have hm : (s.accept len es).sMax.toNat = maxSize es := accept_sMax_toNat hsize
  obtain ⟨e, he, hmaxSize⟩ := exists_maxSize hes
  exact ⟨_, s.accept len es, ⟨e, he, hm.trans hmaxSize.symm⟩, fun f hf => (le_maxSize hf).trans_eq hm.symm, rfl,
    entries_eq_cb hlen.symm, exec_load_of_tableOk hc hok⟩

/-- Settles O12: an accepted table would have passed the check that fires. -/
theorem loadRejectsABadTable : Obligations.LoadRejectsABadTable := by
  intro s len es hc hbad
  have hnot : tableOk s.cfg len es = false := by
    refine Bool.eq_false_iff.2 fun hok => ?_
    obtain ⟨hlen, hne, hmax, hsize, hpf⟩ := (tableOk_iff ..).1 hok
    obtain h | h | h | ⟨e, he, hz | hbig⟩ | ⟨hv, i, j, a, b, hij, ha, hb, hp⟩ := hbad
    · exact h hlen
    · exact hne h
    · exact absurd hmax (Nat.not_le.2 h)
    · have hpos := (hsize e he).1
      simp [hz] at hpos
    · exact absurd (hsize e he).2 (Nat.not_le.2 hbig)
    · exact hpf hv i j a b hij ha hb hp
  exact ⟨_, exec_load_of_not_tableOk hc hnot, rfl⟩

/-- Settles O13: a failed `LOAD` changes the response alone, which neither a decode nor a further `LOAD` reads. -/
theorem failedLoadAdmitsAnother : Obligations.FailedLoadAdmitsAnother := by
  intro s t len es hempty h hfail
  obtain ⟨hc, ⟨-, rfl⟩ | ⟨-, rfl⟩⟩ := exec_load_next h
  · exact absurd (accept_ldResp s len es) hfail
  · obtain ⟨hlen, hmax⟩ := hempty hc
    exact ⟨rfl, hc, hlen, hmax, entries_of_cbLen_zero hlen,
      fun l i hl hi => exec_lane_of_closed hc (isDecode_lane hi) hl,
      fun len' es' => by rw [exec_load_ignores_ldResp]⟩

/-- Settles O14: both changes keep the codewords up to their order, and the verdict reads nothing else. -/
theorem loadVerdictReadsOnlyCodewords : Obligations.LoadVerdictReadsOnlyCodewords := by
  intro s len es mid es' hperm hcodes
  have hmap : mid.map cwBits = es'.map cwBits := by
    rw [← List.forall₂_eq_eq_eq, List.forall₂_map_left_iff, List.forall₂_map_right_iff]
    exact hcodes.imp fun a b ⟨hs, hb⟩ => cwBits_congr hs hb
  rw [exec_load_ldResp, exec_load_ldResp, tableOk_congr (hmap ▸ hperm.map cwBits)]

/-- Settles O15: an accepted table writes the shared codebook state and the response, a rejected one the response. -/
theorem loadFrame : Obligations.LoadFrame := by
  intro s t len es h
  obtain ⟨-, ⟨-, rfl⟩ | ⟨-, rfl⟩⟩ := exec_load_next h
  · exact ⟨rfl, rfl, rfl, rfl, nofun⟩
  · exact ⟨rfl, rfl, rfl, rfl, fun _ => ⟨rfl, rfl⟩⟩

/-- Settles O8: `LOAD` looks at `CB_OK` first, and every decode and symbol asks for acceptance first. -/
theorem unacceptedOperationHasNoStep : Obligations.UnacceptedOperationHasNoStep :=
  ⟨fun _ _ _ hc => exec_load_of_loaded hc, fun _ _ _ hc hi hl => exec_lane_of_closed hc hi hl⟩

end Sys2Proof.Machine

/-! PROOFS. The family 41_matcher_getrlv: the match set on a prefix-free codebook, the two readings of exhaustion, and
where a decode ends as a function of the position and the bits ahead. First these facts, then the statements. -/

namespace Sys2Proof.Machine

/-! ### Matches on a prefix-free codebook -/

/-- Of two entries that match the same look-ahead the shorter is a prefix of the longer (30_encoding R54, R55). -/
theorem bitPrefix_of_matches {L w : Nat} {a b : CodeEntry} (ha : Matches L w a) (hb : Matches L w b)
    (hle : a.size.toNat ≤ b.size.toNat) : BitPrefix a b := by
  obtain ⟨-, hwa⟩ := ha
  obtain ⟨hbL, hwb⟩ := hb
  refine ⟨hle, ?_⟩
  rw [← hwa, ← hwb, ← Nat.shiftRight_add]
  congr 1
  omega

/-- At most one entry of a prefix-free codebook matches (41_matcher R89). -/
theorem PrefixFree.match_unique {cb : List CodeEntry} (hpf : PrefixFree cb) {L w i j : Nat} {a b : CodeEntry}
    (hi : cb[i]? = some a) (hj : cb[j]? = some b) (ha : Matches L w a) (hb : Matches L w b) : i = j := by
  by_contra hij
  rcases le_total a.size.toNat b.size.toNat with hle | hle
  · exact hpf i j a b hij hi hj (bitPrefix_of_matches ha hb hle)
  · exact hpf j i b a (Ne.symm hij) hj hi (bitPrefix_of_matches hb ha hle)

/-- A match on the first `n` bits is a prefix of them (20_memory R34, 30_encoding R54). -/
theorem matches_take_iff (n : Nat) (bits : List Bool) (e : CodeEntry) :
    Matches (min n bits.length) (bitsVal (bits.take n)) e ↔ cwBits e <+: bits.take n := by
  rw [← List.length_take]
  exact matches_iff_isPrefix _ e

/-- Bits beyond those seen keep a match (41_matcher R89). -/
theorem matches_take_append {n : Nat} {bits : List Bool} {e : CodeEntry}
    (h : Matches (min n bits.length) (bitsVal (bits.take n)) e) (more : List Bool) :
    Matches (min n (bits ++ more).length) (bitsVal ((bits ++ more).take n)) e :=
  (matches_take_iff ..).2 (((matches_take_iff ..).1 h).trans ((List.prefix_append bits more).take n))

/-- Prefix-freedom does not read the order of the entries. -/
theorem PrefixFree.perm {cb cb' : List CodeEntry} (h : PrefixFree cb) (hperm : cb.Perm cb') : PrefixFree cb' := by
  rw [← prefixFree_iff_forall, prefixFree_iff_pairwise] at h ⊢
  exact (hperm.pairwise_iff And.symm).1 h

/-! ### The two readings of exhaustion -/

theorem viable_iff (cb : List CodeEntry) (L w : Nat) :
    viable cb L w = true ↔ ∃ e ∈ cb, L < e.size.toNat ∧ cw e >>> (e.size.toNat - L) = w := by
  simp [viable]

theorem missKind_byLength (cb : List CodeEntry) (sMax L w : Nat) :
    missKind .byLength cb sMax L w = if L < sMax then .exhausted else .unmatched := rfl

theorem missKind_byViability (cb : List CodeEntry) (sMax L w : Nat) :
    missKind .byViability cb sMax L w = if L < sMax ∧ viable cb L w = true then .exhausted else .unmatched := by
  rw [ite_and]
  rfl

/-- With no bits read every codeword is still possible. -/
theorem viable_empty {cb : List CodeEntry} (hne : cb ≠ []) (hsize : ∀ e ∈ cb, LegalSize e) : viable cb 0 0 = true := by
  obtain ⟨e, he⟩ := List.exists_mem_of_ne_nil cb hne
  refine (viable_iff ..).2 ⟨e, he, (hsize e he).1, ?_⟩
  rw [Nat.sub_zero, Nat.shiftRight_eq_div_pow, Nat.div_eq_of_lt (cw_lt e)]

/-- With no bits read no legal entry matches. -/
theorem noMatch_empty {cb : List CodeEntry} (hsize : ∀ e ∈ cb, LegalSize e) (w : Nat) : NoMatch cb 0 w := by
  rintro e he ⟨hle, -⟩
  have hpos := (hsize e he).1
  omega

/-! ### Where a decode ends -/

/-- Where a decode leaves the position and what it responds, from its command `op`, its lookup, the position before
and the bits ahead (41_matcher R95, 42_rundecoder R107). -/
def decodeEnd (op : BitVec 1) (x : LookupResult) (p : Nat) (ahead : List Bool) : Nat × Response :=
  match x with
  | .exhausted => (p, .error .bitstreamExhausted p)
  | .unmatched => (p, .error .unmatchedCodeword p)
  | .found i e =>
    if op = 0 ∨ e.value = 0 then (p + e.size.toNat, .ok e.count e.value (BitVec.ofNat 32 i) (markerOf e))
    else
      match ahead[e.size.toNat]? with
      | none => (p, .error .bitstreamExhausted p)
      | some g => (p + e.size.toNat + 1, .ok e.count (signedValue e.value g) (BitVec.ofNat 32 i) false)

/-- The commands of a decode port are the two values of `op` (30_encoding R57). -/
theorem exists_decodeOp {l : Nat} {i : Instr} (h : IsDecode l i) : ∃ op, i = decodeOp l op := by
  cases h with
  | getrlv => exact ⟨0, rfl⟩
  | getrun => exact ⟨1, rfl⟩

/-- The lane `ln` of `s`, ended by `op` as `decodeEnd` says. -/
def State.decodeWith (s : State) (l : Nat) (op : BitVec 1) (ln : Lane) : State :=
  let r := decodeEnd op (s.lookup ln.cursor) ln.cursor.pos ln.cursor.rest
  s.decoded l ln r.1 r.2

/-- An accepted decode ends as `decodeEnd` says. -/
theorem exec_decodeOp_open {s : State} {l : Nat} {ln : Lane} (hc : s.cbOk = true) (hl : s.lanes[l]? = some ln)
    (op : BitVec 1) : exec (decodeOp l op) s = .next (s.decodeWith l op ln) := by
  by_cases hop : op = 0
  · subst hop
    show execGetrlv l s = _
    rw [execGetrlv_open hc hl, State.decodeWith]
    cases s.lookup ln.cursor <;> rfl
  · rw [decodeOp, if_neg hop]
    show execGetrun l s = _
    rw [execGetrun_open hc hl, State.decodeWith]
    cases s.lookup ln.cursor with
    | exhausted => rfl
    | unmatched => rfl
    | found i e =>
      simp only [decodeEnd, hop, false_or]
      split
      · rfl
      · obtain ⟨hr, h⟩ | ⟨g, hg, h⟩ := takeSigned_cases l ln i e s
        · rw [h, List.getElem?_eq_none (by rw [rest_length]; omega)]
        · rw [h, rest_getElem?, hg]

/-- The next state of a decode, accepted or not. -/
theorem nextState_decodeOp (s : State) (l : Nat) (op : BitVec 1) :
    nextState (exec (decodeOp l op) s) = if s.cbOk then s.lanes[l]?.map (s.decodeWith l op) else none := by
  cases hl : s.lanes[l]? with
  | none =>
    have hfault : exec (decodeOp l op) s = .fault .noSuchLane := by
      rw [decodeOp]
      split <;> simp [exec, execGetrlv, execGetrun, acceptDecode, hl]
    rw [hfault]
    split <;> rfl
  | some ln =>
    cases hc : s.cbOk with
    | false =>
      rw [exec_lane_of_closed hc (decodeOp_lane l op) (List.getElem?_eq_some_iff.1 hl).1]
      rfl
    | true =>
      rw [exec_decodeOp_open hc hl]
      rfl

/-- The lane after a decode that ended there. -/
theorem decodeWith_lane {s : State} {l : Nat} {ln : Lane} (hl : s.lanes[l]? = some ln) (op : BitVec 1) :
    (s.decodeWith l op ln).lanes[l]? =
      let r := decodeEnd op (s.lookup ln.cursor) ln.cursor.pos ln.cursor.rest
      some { ln with cursor := { ln.cursor with pos := r.1 }, resp := some r.2 } :=
  lanes_set_self _ _ _ _ hl

/-! ### What a decode reads of the stream -/

/-- `Peek(c, n)` reads the next `n` bits, or as many as there are (20_memory R34). -/
theorem peek_eq_take (c : Cursor) (n : Nat) : c.peek n = ((c.rest.take n).length, bitsVal (c.rest.take n)) := by
  have htake : c.rest.take (min n c.remaining) = c.rest.take n := by
    rw [← rest_length, ← List.take_eq_take_min]
  rw [Cursor.peek, htake, List.length_take, rest_length]

/-- A lookup reads the codebook and the next `S_MAX` bits (20_memory R36). -/
theorem lookup_congr {s₁ s₂ : State} {c₁ c₂ : Cursor} (he : s₁.entries = s₂.entries) (hs : s₁.sMax = s₂.sMax)
    (hb : c₁.rest.take s₁.sMax.toNat = c₂.rest.take s₁.sMax.toNat) : s₁.lookup c₁ = s₂.lookup c₂ := by
  rw [State.lookup, State.lookup, peek_eq_take, peek_eq_take, hb, he, hs]

/-- A found codeword is at most `S_MAX` bits long. -/
theorem lookup_found_le_sMax {s : State} {c : Cursor} {i : Nat} {e : CodeEntry} (h : s.lookup c = .found i e) :
    e.size.toNat ≤ s.sMax.toNat := by
  obtain ⟨-, hm, -⟩ := (lookup_found_iff s c i e).1 h
  exact ((matches_peek_iff rfl e).1 hm).1

/-- A decode reads `S_MAX` bits and, for `GETRUN` with `op = 1`, one more (20_memory R36). -/
theorem decodeEnd_take (s : State) (c : Cursor) (op : BitVec 1) (p : Nat) :
    decodeEnd op (s.lookup c) p c.rest =
      decodeEnd op (s.lookup c) p (c.rest.take (s.sMax.toNat + op.toNat)) := by
  cases hx : s.lookup c with
  | exhausted => rfl
  | unmatched => rfl
  | found i e =>
    by_cases hop : op = 0
    · simp only [decodeEnd, hop, true_or, if_true]
    · have hone : op.toNat ≠ 0 := fun h0 => hop (BitVec.eq_of_toNat_eq h0)
      have hle := lookup_found_le_sMax hx
      simp only [decodeEnd]
      rw [List.getElem?_take_of_lt (by omega)]

/-- R98, R109 for both commands: a decode answers by its position and the bits it looks at. -/
theorem decodeOp_answer_congr {s₁ s₂ : State} {l₁ l₂ : Nat} {ln₁ ln₂ : Lane} (hl₁ : s₁.lanes[l₁]? = some ln₁)
    (hl₂ : s₂.lanes[l₂]? = some ln₂) (hc : s₁.cbOk = s₂.cbOk) (he : s₁.entries = s₂.entries) (hs : s₁.sMax = s₂.sMax)
    (hp : ln₁.cursor.pos = ln₂.cursor.pos) (op : BitVec 1)
    (hb : ln₁.cursor.rest.take (s₁.sMax.toNat + op.toNat) = ln₂.cursor.rest.take (s₁.sMax.toNat + op.toNat)) :
    (nextState (exec (decodeOp l₁ op) s₁)).map (fun t => t.lanes[l₁]?.map fun ln => (ln.resp, ln.cursor.pos)) =
    (nextState (exec (decodeOp l₂ op) s₂)).map (fun t => t.lanes[l₂]?.map fun ln => (ln.resp, ln.cursor.pos)) := by
  have hahead : ln₁.cursor.rest.take s₁.sMax.toNat = ln₂.cursor.rest.take s₁.sMax.toNat := by
    simpa [List.take_take] using congrArg (List.take s₁.sMax.toNat) hb
  have hend : decodeEnd op (s₁.lookup ln₁.cursor) ln₁.cursor.pos ln₁.cursor.rest =
      decodeEnd op (s₂.lookup ln₂.cursor) ln₂.cursor.pos ln₂.cursor.rest := by
    rw [decodeEnd_take, decodeEnd_take, lookup_congr he hs hahead, hb, hp, hs]
  rw [nextState_decodeOp, nextState_decodeOp, hl₁, hl₂, hc]
  cases s₂.cbOk with
  | false => rfl
  | true => simp only [if_true, Option.map_some, decodeWith_lane hl₁, decodeWith_lane hl₂, hend]

/-! ### The order of the entries -/

/-- On a prefix-free codebook a lookup finds the same entry in any order of the entries, or fails the same way
(41_matcher R96). -/
theorem lookup_perm_cases {s : State} {cb' : List CodeEntry} (hlen : s.cb.length = s.cbLen.toNat)
    (hpf : PrefixFree s.cb) (hperm : s.cb.Perm cb') (c : Cursor) :
    (∃ i j e, s.lookup c = .found i e ∧ (s.withStore cb').lookup c = .found j e) ∨
      (s.withStore cb').lookup c = s.lookup c := by
  have he : s.entries = s.cb := entries_eq_cb hlen
  have he' : (s.withStore cb').entries = cb' := entries_eq_cb (s := s.withStore cb') (hperm.length_eq.symm.trans hlen)
  obtain ⟨i, e, hsel⟩ | hn := selected_or_noMatch s.entries (c.peek s.sMax.toNat).1 (c.peek s.sMax.toNat).2
  · have hx := (lookup_found_iff ..).2 hsel
    obtain ⟨hi, -⟩ := hsel
    have hmem : e ∈ cb' := hperm.mem_iff.1 (he ▸ List.mem_of_getElem? hi)
    obtain ⟨j, hj⟩ := List.mem_iff_getElem?.1 hmem
    have hsel' : Selected cb' (c.peek s.sMax.toNat).1 (c.peek s.sMax.toNat).2 j e :=
      selected_of_prefixFree (hpf.perm hperm) hj (lookup_found_le_sMax hx)
        (cwBits_prefix_of_selected ((lookup_found_iff ..).1 hx))
    exact .inl ⟨i, j, e, hx, (lookup_found_iff (s.withStore cb') c j e).2 (he'.symm ▸ hsel')⟩
  · have hn' : NoMatch (s.withStore cb').entries (c.peek s.sMax.toNat).1 (c.peek s.sMax.toNat).2 := by
      intro e hmem
      rw [he', ← hperm.mem_iff, ← he] at hmem
      exact hn e hmem
    exact .inr ((lookup_of_noMatch rfl hn').trans (lookup_of_noMatch rfl hn).symm)

/-- The index at which an entry was found shows in `idx` alone (41_matcher R96). -/
theorem decodeEnd_index (op : BitVec 1) (i j : Nat) (e : CodeEntry) (p : Nat) (ahead : List Bool) :
    (decodeEnd op (.found i e) p ahead).1 = (decodeEnd op (.found j e) p ahead).1 ∧
      (decodeEnd op (.found i e) p ahead).2.dropIdx = (decodeEnd op (.found j e) p ahead).2.dropIdx := by
  simp only [decodeEnd]
  split
  · exact ⟨rfl, rfl⟩
  · split <;> exact ⟨rfl, rfl⟩

/-! ### The statements -/

/-- Settles O17: the lookup finds the selected entry, which is taken as stored. -/
theorem getrlvReportsTheSelectedEntry : Obligations.GetrlvReportsTheSelectedEntry := by
  intro s l ln L w i e hc hl hp hsel
  have ⟨hi, _⟩ := hsel
  refine ⟨?_, ?_⟩
  · rw [BitVec.toNat_ofNat, Nat.mod_eq_of_lt (entries_index_lt hi)]
  · show execGetrlv l s = _
    simp only [execGetrlv_open hc hl, lookup_of_selected hp hsel, markerOf_eq]

/-- Settles O18: the lookup fails, in kind by the length of the look-ahead. -/
theorem getrlvFailsWithoutConsuming : Obligations.GetrlvFailsWithoutConsuming := by
  intro s l ln L w hc hl hp hn
  show execGetrlv l s = _
  rw [execGetrlv_open hc hl, lookup_of_noMatch hp hn]
  by_cases hshort : L < s.sMax.toNat
  · rw [if_pos hshort, if_pos hshort]
  · rw [if_neg hshort, if_neg hshort]

/-- Settles O33: `GETRLV` is the command `op = 0` and `GETRUN` the command `op = 1`. -/
theorem decodeReadsOnlyTheLookAhead : Obligations.DecodeReadsOnlyTheLookAhead := by
  intro s₁ s₂ l₁ l₂ ln₁ ln₂ hl₁ hl₂ hc he hs hp
  exact ⟨decodeOp_answer_congr hl₁ hl₂ hc he hs hp 0, decodeOp_answer_congr hl₁ hl₂ hc he hs hp 1⟩

/-- Settles O34: the lookup finds the same entry in either order, at an index that shows in `idx` alone. -/
theorem entryOrderChangesOnlyTheIndex : Obligations.EntryOrderChangesOnlyTheIndex := by
  intro s cb' i l hi hlen hpf hperm
  obtain ⟨op, rfl⟩ := exists_decodeOp hi
  have hc' : (s.withStore cb').cbOk = s.cbOk := rfl
  have hl' : (s.withStore cb').lanes[l]? = s.lanes[l]? := rfl
  rw [nextState_decodeOp, nextState_decodeOp (s.withStore cb'), hc', hl']
  cases s.cbOk with
  | false => rfl
  | true =>
    cases hl : s.lanes[l]? with
    | none => rfl
    | some ln =>
      simp only [if_true, Option.map_some, decodeWith_lane hl, decodeWith_lane (hl'.trans hl)]
      obtain ⟨i, j, e, hx, hx'⟩ | hx := lookup_perm_cases hlen hpf hperm ln.cursor
      · obtain ⟨hpos, hresp⟩ := decodeEnd_index op i j e ln.cursor.pos ln.cursor.rest
        rw [hx, hx', hpos, hresp]
      · rw [hx]

/-- Settles O47: two matches are prefixes of one look-ahead, and more bits keep a match. -/
theorem prefixFreeMatchIsUnique : Obligations.PrefixFreeMatchIsUnique := by
  intro cb hpf
  refine ⟨fun L w i j a b hi hj => hpf.match_unique hi hj, fun n bits more i j a b hi hj ha => ?_⟩
  have ha' := matches_take_append ha more
  exact ⟨ha', hpf.match_unique hi hj ha'⟩

/-- Settles O48: both readings find what R90 selects, and report a failure by `missKind`. -/
theorem exhaustReadingsDifferInKindOnly : Obligations.ExhaustReadingsDifferInKindOnly := by
  intro cb sMax L w
  refine ⟨fun i e => by rw [lookupIn_found_iff, lookupIn_found_iff], fun hne => ?_, ?_⟩
  · obtain ⟨i, e, hsel⟩ | hn := selected_or_noMatch cb L w
    · exact absurd (((lookupIn_found_iff ..).2 hsel).trans ((lookupIn_found_iff ..).2 hsel).symm) hne
    · rw [lookupIn_of_noMatch _ _ hn, lookupIn_of_noMatch _ _ hn, missKind_byLength, missKind_byViability] at hne ⊢
      by_cases hshort : L < sMax
      · by_cases hv : viable cb L w = true
        · simp [hshort, hv] at hne
        · refine ⟨hshort, if_pos hshort, if_neg fun h => hv h.2, fun e he hlong heq => ?_⟩
          exact hv ((viable_iff ..).2 ⟨e, he, hlong, heq⟩)
      · simp [hshort] at hne
  · rintro rfl rfl hpos hcb hsize
    have hn := noMatch_empty hsize 0
    rw [lookupIn_of_noMatch _ _ hn, lookupIn_of_noMatch _ _ hn, missKind_byLength, missKind_byViability]
    exact ⟨if_pos hpos, if_pos ⟨hpos, viable_empty hcb hsize⟩⟩

end Sys2Proof.Machine

/-! PROOFS. The family 42_rundecoder_getrun: `GETRUN` beside `GETRLV` by the class of the found entry, the sign bit
behind a codeword, negation. First these facts, then the statements. -/

namespace Sys2Proof.Machine

/-! ### Negation -/

/-- `neg_32` is the negation of two's complement (42_rundecoder R106). -/
theorem neg32_eq_neg (v : Word) : neg32 v = -v := rfl

theorem toInt_eq_min_iff (v : Word) : v.toInt = -2 ^ 31 ↔ v = BitVec.intMin 32 := by
  rw [← BitVec.toInt_inj, BitVec.toInt_intMin_of_pos (by decide)]

/-! ### The lookup -/

/-- On a prefix-free codebook the lookup finds the entry whose codeword stands at the cursor (41_matcher R89). -/
theorem lookup_of_codeword {s : State} {c : Cursor} {i : Nat} {e : CodeEntry} (hpf : PrefixFree s.entries)
    (hi : s.entries[i]? = some e) (hle : e.size.toNat ≤ s.sMax.toNat) (hp : cwBits e <+: c.rest) :
    s.lookup c = .found i e :=
  (lookup_found_iff s c i e).2 (selected_of_prefixFree hpf hi hle hp)

/-! ### The bit after a codeword -/

theorem bit_after_codeword {c : Cursor} {e : CodeEntry} {g : Bool} {more : List Bool}
    (h : c.rest = cwBits e ++ g :: more) : c.stream[c.pos + e.size.toNat]? = some g := by
  rw [← rest_getElem?, h, List.getElem?_append_right (by simp)]
  simp

/-- Where the next bit is there, `Take` of one bit reads it (20_memory R35). -/
theorem take_one_of_bit {c : Cursor} {g : Bool} (hg : c.stream[c.pos]? = some g) :
    c.take 1 = some (g.toNat, { c with pos := c.pos + 1 }) := by
  have hlt := (List.getElem?_eq_some_iff.1 hg).1
  have hle : 1 ≤ c.remaining := by
    rw [Cursor.remaining]
    omega
  rw [take_of_le hle, peek_one hg]

/-- Where the bits that remain are as many as the found codeword has, they are the codeword. -/
theorem rest_of_found_of_remaining {s : State} {c : Cursor} {i : Nat} {e : CodeEntry} (hx : s.lookup c = .found i e)
    (hr : c.remaining = e.size.toNat) : c.rest = cwBits e := by
  have hp : cwBits e <+: c.rest := cwBits_prefix_of_selected ((lookup_found_iff s c i e).1 hx)
  exact (hp.eq_of_length (by rw [cwBits_length, rest_length, hr])).symm

/-- Bits appended to a stream come after those that remain (20_memory R31). -/
theorem rest_append {c : Cursor} (h : c.pos ≤ c.stream.length) (bits : List Bool) :
    ({ c with stream := c.stream ++ bits } : Cursor).rest = c.rest ++ bits :=
  List.drop_append_of_le_length h

/-- An append lengthens the stream of its lane and leaves the codebook (20_memory R31). -/
theorem hostAct_append_next {s t : State} {l : Nat} {ln : Lane} {bits : List Bool} (hl : s.lanes[l]? = some ln)
    (h : hostAct (.append l bits) s = .next t) :
    t.cbOk = s.cbOk ∧ t.entries = s.entries ∧ t.sMax = s.sMax ∧
      t.lanes[l]? = some { ln with cursor := { ln.cursor with stream := ln.cursor.stream ++ bits } } := by
  have happ : hostAct (.append l bits) s = _ := onLane_of_lane hl _
  cases happ.symm.trans h
  exact ⟨rfl, rfl, rfl, lanes_set_self _ _ _ _ hl⟩

/-! ### `GETRUN` by the class of the found entry -/

section Accepted

variable {s : State} {l : Nat} {ln : Lane} (hc : s.cbOk = true) (hl : s.lanes[l]? = some ln)
include hc hl

/-- A failure of the lookup ends both commands in the same way (42_rundecoder R102). -/
theorem exec_getrun_eq_getrlv_of_noMatch {L w : Nat} (hp : ln.cursor.peek s.sMax.toNat = (L, w))
    (hn : NoMatch s.entries L w) : exec (.getrun l) s = exec (.getrlv l) s := by
  show execGetrun l s = execGetrlv l s
  rw [execGetrun_open hc hl, execGetrlv_open hc hl, lookup_of_noMatch hp hn]
  by_cases hshort : L < s.sMax.toNat
  · rw [if_pos hshort]
  · rw [if_neg hshort]

variable {i : Nat} {e : CodeEntry} (hx : s.lookup ln.cursor = .found i e)
include hx

theorem exec_getrlv_of_found :
    exec (.getrlv l) s = .next (s.decoded l ln (ln.cursor.pos + e.size.toNat)
      (.ok e.count e.value (BitVec.ofNat 32 i) (markerOf e))) := by
  show execGetrlv l s = _
  simp only [execGetrlv_open hc hl, hx]

theorem exec_getrun_eq_getrlv_of_value_zero (hv : e.value = 0) : exec (.getrun l) s = exec (.getrlv l) s := by
  rw [exec_getrun_of_found hc hl hx, if_pos hv, takeEntry_of_le (lookup_found_le hx), exec_getrlv_of_found hc hl hx]

/-- The sign rule is for value entries alone (42_rundecoder R104, R105). -/
theorem exec_getrun_of_value (hv : e.value ≠ 0) : exec (.getrun l) s = takeSigned l ln i e s := by
  rw [exec_getrun_of_found hc hl hx, if_neg hv]

/-- A value entry with its sign bit there (42_rundecoder R104). -/
theorem exec_getrun_of_bit (hv : e.value ≠ 0) {g : Bool}
    (hg : ln.cursor.stream[ln.cursor.pos + e.size.toNat]? = some g) :
    exec (.getrun l) s = .next (s.decoded l ln (ln.cursor.pos + e.size.toNat + 1)
      (.ok e.count (signedValue e.value g) (BitVec.ofNat 32 i) false)) := by
  rw [exec_getrun_of_value hc hl hx hv, takeSigned_of_bit hg]

end Accepted

/-! ### The statements -/

/-- Settles O41: the lookup finds the entry, and `GETRUN` takes the first padding bit as the sign of a value entry. -/
theorem entryDecodesFromItsCodeword : Obligations.EntryDecodesFromItsCodeword := by
  intro s l ln i e g more hc hl hpf hsize hi hrest
  have hx : s.lookup ln.cursor = .found i e :=
    lookup_of_codeword hpf hi (hsize e (List.mem_of_getElem? hi)) (hrest ▸ List.prefix_append _ _)
  have hrlv := exec_getrlv_of_found hc hl hx
  rw [markerOf_eq] at hrlv
  refine ⟨hrlv, ?_⟩
  by_cases hv : e.value = 0
  · rw [exec_getrun_eq_getrlv_of_value_zero hc hl hx hv, hrlv, if_pos hv, if_neg fun h => h.1 hv, Nat.add_zero]
  · rw [exec_getrun_of_bit hc hl hx hv (bit_after_codeword hrest), if_neg hv, decide_eq_false fun h => hv h.2]
    simp only [signedValue, hv, ne_eq, not_false_eq_true, true_and]

/-- Settles O19: where the lookup fails, `GETRUN` does what `GETRLV` does. -/
theorem getrunFailsAsTheMatcher : Obligations.GetrunFailsAsTheMatcher := by
  intro s l ln L w hc hl hp hn
  rw [exec_getrun_eq_getrlv_of_noMatch hc hl hp hn]
  exact getrlvFailsWithoutConsuming s l ln L w hc hl hp hn

/-- Settles O20: a found entry without a value is taken as `GETRLV` takes it. -/
theorem getrunReportsRunsAndMarkers : Obligations.GetrunReportsRunsAndMarkers := by
  intro s l ln L w i e hc hl hp hsel hv
  have hx := lookup_of_selected hp hsel
  rw [exec_getrun_eq_getrlv_of_value_zero hc hl hx hv, exec_getrlv_of_found hc hl hx, markerOf_eq, hv]
  simp only [and_true]

/-- Settles O21: a bit that remains after the codeword is the sign. -/
theorem getrunSignsValues : Obligations.GetrunSignsValues := by
  intro s l ln L w i e hc hl hp hsel hv hrem
  obtain ⟨g, hg⟩ := exists_bit hrem
  exact ⟨g, hg, exec_getrun_of_bit hc hl (lookup_of_selected hp hsel) hv hg⟩

/-- Settles O22: the bits that remain are the codeword, and an appended bit stands right after it. -/
theorem getrunWithoutSignBit : Obligations.GetrunWithoutSignBit := by
  intro s l ln L w i e hc hl hp hsel hv hrem
  have hx := lookup_of_selected hp hsel
  have hsize : ln.cursor.remaining = e.size.toNat := by
    have hle := lookup_found_le hx
    omega
  refine ⟨hsize, ?_, fun hpf hpos g more s' happ => ?_⟩
  · rw [exec_getrun_of_value hc hl hx hv, takeSigned_of_missing hrem]
  · obtain ⟨hc', hentries, hsMax, hl'⟩ := hostAct_append_next hl happ
    have hrest := rest_append hpos (g :: more)
    rw [rest_of_found_of_remaining hx hsize] at hrest
    obtain ⟨hi, -⟩ := hsel
    rw [← hentries] at hpf hi
    have hle : e.size.toNat ≤ s'.sMax.toNat := hsMax ▸ lookup_found_le_sMax hx
    have hx' := lookup_of_codeword hpf hi hle (hrest ▸ List.prefix_append _ _)
    exact ⟨_, hl', exec_getrun_of_bit (hc'.trans hc) hl' hx' hv (bit_after_codeword hrest)⟩

/-- Settles O24: the commands part on a value entry alone, where `GETRUN` goes on to take the bit at which `GETRLV`
stops, or finds none. -/
theorem getrunAgainstGetrlv : Obligations.GetrunAgainstGetrlv := by
  intro s l ln L w hc hl hp
  refine ⟨exec_getrun_eq_getrlv_of_noMatch hc hl hp, fun i e hsel => ?_⟩
  have hx := lookup_of_selected hp hsel
  refine ⟨exec_getrun_eq_getrlv_of_value_zero hc hl hx, fun hv => ?_⟩
  have hrlv := exec_getrlv_of_found hc hl hx
  rw [markerOf_eq, decide_eq_false fun h => hv h.2] at hrlv
  refine ⟨_, _, hrlv, lanes_set_self _ _ _ _ hl, rfl, rfl, ?_⟩
  rw [exec_getrun_of_value hc hl hx hv]
  obtain ⟨hrem, hrun⟩ | ⟨g, hg, hrun⟩ := takeSigned_cases l ln i e s
  · refine .inl ⟨take_of_lt ?_, hrun⟩
    simp only [Cursor.remaining] at hrem ⊢
    omega
  · refine .inr ⟨_, _, take_one_of_bit hg, ?_⟩
    rw [hrun]
    cases g <;> rfl

/-- Settles O23: `neg_32` is the negation of two's complement, which wraps at the minimum alone. -/
theorem negationWrapsAtTheMinimum : Obligations.NegationWrapsAtTheMinimum := by
  intro v
  refine ⟨BitVec.toNat_ofNat .., fun h => ?_, fun h => ?_⟩
  · rw [neg32_eq_neg, BitVec.toInt_neg_of_ne_intMin fun hmin => h ((toInt_eq_min_iff v).2 hmin)]
  · rw [neg32_eq_neg, (toInt_eq_min_iff v).1 h, BitVec.neg_intMin, (toInt_eq_min_iff _).2 rfl]

end Sys2Proof.Machine

/-! PROOFS. The family 60_exceptions: what an error leaves, the decode tried again, the lane seen alone in a sequence
of decodes, and the response of every accepted operation. First these facts, then the statements. -/

namespace Sys2Proof.Machine

/-! ### Errors -/

/-- A decode or symbol that ends in an error gives its lane the response, with the position it stood at, and changes
nothing else (60_exceptions R120, R122). -/
theorem exec_lane_error {s t : State} {i : Instr} {l : Nat} {ln' : Lane} {k : ErrorKind} {p : Nat}
    (hi : i.lane? = some l) (h : exec i s = .next t) (hl' : t.lanes[l]? = some ln')
    (herr : ln'.resp = some (.error k p)) :
    ∃ ln, s.lanes[l]? = some ln ∧ p = ln.cursor.pos ∧ ln' = { ln with resp := some (.error k p) } ∧
      t = s.setLane l { ln with resp := some (.error k p) } := by
  obtain ⟨-, ln, hl, hend⟩ := exec_lane_next hi h
  have lane_after {q : Nat} {r : Response} (ht : t = s.decoded l ln q r) :
      ln' = { ln with cursor := { ln.cursor with pos := q }, resp := some r } := by
    rw [ht] at hl'
    exact Option.some.inj (hl'.symm.trans (lanes_set_self _ _ _ _ hl))
  obtain ⟨k', -, ht⟩ | ⟨idx, e, -, ⟨-, ht⟩ | ⟨g, -, -, -, ht⟩⟩ := hend
  · obtain rfl := lane_after ht
    cases herr
    exact ⟨ln, hl, rfl, rfl, ht⟩
  · obtain rfl := lane_after ht
    cases herr
  · obtain rfl := lane_after ht
    cases herr

/-! ### The decode tried again -/

/-- A decode overwrites the response of its lane and does not read it. -/
theorem exec_decodeOp_ignores_resp {s : State} {l : Nat} {ln : Lane} (hl : s.lanes[l]? = some ln) (op : BitVec 1)
    (r : Option Response) :
    exec (decodeOp l op) (s.setLane l { ln with resp := r }) = exec (decodeOp l op) s := by
  have hl' : (s.setLane l { ln with resp := r }).lanes[l]? = some { ln with resp := r } := lanes_set_self _ _ _ _ hl
  cases hc : s.cbOk with
  | true =>
    rw [exec_decodeOp_open (s := s.setLane l _) hc hl', exec_decodeOp_open hc hl]
    simp only [State.decodeWith, State.decoded, setLane_lookup]
    simp only [State.setLane, List.set_set]
  | false =>
    have hi := decodeOp_lane l op
    rw [exec_lane_of_closed (s := s.setLane l _) hc hi (List.getElem?_eq_some_iff.1 hl').1,
      exec_lane_of_closed hc hi (List.getElem?_eq_some_iff.1 hl).1]

/-- An append keeps the response of the lane, wherever that came from (20_memory R31). -/
theorem hostAct_append_setLane_resp {s s₁ t₁ : State} {l : Nat} {ln : Lane} (hl : s.lanes[l]? = some ln)
    {r : Option Response} {bits : List Bool} (hs : hostAct (.append l bits) s = .next s₁)
    (ht : hostAct (.append l bits) (s.setLane l { ln with resp := r }) = .next t₁) :
    ∃ ln₁, s₁.lanes[l]? = some ln₁ ∧ t₁ = s₁.setLane l { ln₁ with resp := r } := by
  have happ : hostAct (.append l bits) s = _ := onLane_of_lane hl _
  have happ' : hostAct (.append l bits) (s.setLane l { ln with resp := r }) = _ :=
    onLane_of_lane (lanes_set_self _ _ _ _ hl) _
  cases happ.symm.trans hs
  cases happ'.symm.trans ht
  refine ⟨_, lanes_set_self _ _ _ _ hl, ?_⟩
  simp only [State.setLane, List.set_set]

/-! ### One lane of a sequence of decodes -/

/-- All that a decode on lane `l` reads is in `t` as it is in `s` (20_memory R43). -/
def State.SameView (l : Nat) (s t : State) : Prop :=
  t.cbOk = s.cbOk ∧ t.entries = s.entries ∧ t.sMax = s.sMax ∧ t.lanes[l]? = s.lanes[l]?

/-- A decode on the lane does the same to it on both sides. -/
theorem State.SameView.exec_own {l : Nat} {s s' t : State} {i : Instr} (hv : s.SameView l s') (hi : IsDecode l i)
    (h : exec i s = .next t) : ∃ t', exec i s' = .next t' ∧ t.SameView l t' := by
  obtain ⟨hc, he, hs, hl⟩ := hv
  obtain ⟨ln, p, r, hln, rfl, h'⟩ := decode_transfer hi h hc he hs hl
  exact ⟨_, h', hc, he, hs, (lanes_set_self _ _ _ _ (hl.trans hln)).trans (lanes_set_self _ _ _ _ hln).symm⟩

/-- A decode on another lane changes nothing that the lane sees. -/
theorem State.SameView.exec_other {l j : Nat} {s s' t : State} {i : Instr} (hv : s.SameView l s') (hi : IsDecode j i)
    (hj : j ≠ l) (h : exec i s = .next t) : t.SameView l s' := by
  obtain ⟨hc, he, hs, hl⟩ := hv
  obtain ⟨ln, p, r, -, rfl, -⟩ := exec_lane_decoded (isDecode_lane hi) h
  exact ⟨hc, he, hs, hl.trans (lanes_set_ne _ _ hj.symm).symm⟩

theorem execAll_cons_next_iff {i : Instr} {is : List Instr} {s t : State} :
    execAll (i :: is) s = .next t ↔ ∃ u, exec i s = .next u ∧ execAll is u = .next t := by
  rw [execAll]
  cases exec i s <;> simp

/-- A sequence of decodes leaves the lane where its own decodes alone leave it (60_exceptions R129). -/
theorem State.SameView.execAll_filter {l : Nat} {is : List Instr} (his : ∀ i ∈ is, ∃ j, IsDecode j i) {s s' t : State}
    (hv : s.SameView l s') (h : execAll is s = .next t) :
    ∃ t', execAll (is.filter fun i => i.lane? == some l) s' = .next t' ∧ t.SameView l t' := by
  induction is generalizing s s' with
  | nil =>
    cases h
    exact ⟨s', rfl, hv⟩
  | cons i is ih =>
    obtain ⟨⟨j, hi⟩, his⟩ := List.forall_mem_cons.1 his
    obtain ⟨u, hu, h⟩ := execAll_cons_next_iff.1 h
    have hlane : i.lane? = some j := isDecode_lane hi
    by_cases hj : j = l
    · subst hj
      obtain ⟨u', hu', hv'⟩ := hv.exec_own hi hu
      obtain ⟨t', ht', hvt⟩ := ih his hv' h
      rw [List.filter_cons_of_pos (by simp [hlane])]
      exact ⟨t', execAll_cons_next_iff.2 ⟨u', hu', ht'⟩, hvt⟩
    · rw [List.filter_cons_of_neg (by simp [hlane, hj])]
      exact ih his (hv.exec_other hi hj hu) h

/-! ### The statements -/

/-- Settles O30: an error changes the response alone, of the lane or of `LOAD`. -/
theorem errorsChangeNothing : Obligations.ErrorsChangeNothing := by
  refine ⟨fun s t i l ln' k p hi h hl' herr => ?_, fun s t len es k h herr => ?_⟩
  · obtain ⟨ln, hl, hp, rfl, ht⟩ := exec_lane_error (isDecode_lane hi) h hl' herr
    exact ⟨ln, hl, hp, rfl, ht⟩
  · obtain ⟨hc, ⟨-, rfl⟩ | ⟨-, rfl⟩⟩ := exec_load_next h
    · rw [accept_ldResp] at herr
      cases herr
    · cases herr
      exact ⟨hc, rfl⟩

/-- Settles O37: at the start the lane sees the same on both sides. -/
theorem interleavingLeavesEachLaneAlone : Obligations.InterleavingLeavesEachLaneAlone := by
  intro s t is l his h
  have hv : s.SameView l s := ⟨rfl, rfl, rfl, rfl⟩
  obtain ⟨t', ht', -, -, -, hl⟩ := hv.execAll_filter his h
  exact ⟨t', ht', hl⟩

/-- Settles O38: the failure left its response alone, which neither a decode nor an append reads. -/
theorem retryAfterFailure : Obligations.RetryAfterFailure := by
  intro s t i l ln' k p hi h hl' herr
  obtain ⟨ln, hl, -, -, rfl⟩ := exec_lane_error (isDecode_lane hi) h hl' herr
  obtain ⟨op, rfl⟩ := exists_decodeOp hi
  refine ⟨(exec_decodeOp_ignores_resp hl op _).trans h, fun more s₁ t₁ hs₁ ht₁ => ?_⟩
  obtain ⟨ln₁, hl₁, rfl⟩ := hostAct_append_setLane_resp hl hs₁ ht₁
  exact exec_decodeOp_ignores_resp hl₁ op _

/-- Settles O40: `LOAD` responds with its verdict, and a decode as `decodeEnd` says. -/
theorem everyAcceptedOperationResponds : Obligations.EveryAcceptedOperationResponds := by
  refine ⟨fun s len es hc => ?_, fun s i l hc hl hi => ?_⟩
  · cases hok : tableOk s.cfg len es with
    | true => exact ⟨_, _, exec_load_of_tableOk hc hok, rfl⟩
    | false => exact ⟨_, _, exec_load_of_not_tableOk hc hok, rfl⟩
  · obtain ⟨op, rfl⟩ := exists_decodeOp hi
    have hln := List.getElem?_eq_getElem hl
    exact ⟨_, _, _, exec_decodeOp_open hc hln op, decodeWith_lane hln op, rfl⟩

end Sys2Proof.Machine

/-! PROOFS. The family 70_reset_and_hazards: the reset event, an operation that waits at its port, and the block that no
port serves and the host leaves alone. First these facts, then the statements. -/

namespace Sys2Proof.Machine

/-! ### The reset event -/

@[simp] theorem hostReset_cbOk (s : State) : (hostReset s).cbOk = false := rfl

/-- A reset drops the response of a lane and leaves the rest of it, the waiting command included (log 10). -/
theorem hostReset_lane {s : State} {l : Nat} {ln : Lane} (h : s.lanes[l]? = some ln) :
    (hostReset s).lanes[l]? = some ln.dropResp := by
  simp [hostReset, h]

@[simp] theorem hostReset_lanes_length (s : State) : (hostReset s).lanes.length = s.lanes.length :=
  List.length_map _

/-- Without a codebook every `LOAD` is accepted, and ends with its verdict (40_codebook_load R71). -/
theorem exists_exec_load_next {s : State} (hc : s.cbOk = false) (len : Word) (es : List CodeEntry) :
    ∃ t, exec (.load len es) s = .next t := by
  cases hok : tableOk s.cfg len es with
  | true => exact ⟨_, exec_load_of_tableOk hc hok⟩
  | false => exact ⟨_, exec_load_of_not_tableOk hc hok⟩

/-! ### The load port -/

/-- With `CB_OK = 1` a fetch serves a decode port and leaves the load port. -/
theorem fetch_loadPort {s s' : State} {r : Except LoadError Instr} (hc : s.cbOk = true) (h : fetch s = some (r, s')) :
    s'.loadPort = s.loadPort := by
  obtain ⟨-, l, op, -, -, rfl⟩ | ⟨hc', -⟩ := fetch_cases h
  · rfl
  · exact absurd hc (by simp [hc'])

/-- No instruction touches the load port; a `LOAD` was taken off it before it runs. -/
theorem exec_loadPort {s t : State} {i : Instr} (h : exec i s = .next t) : t.loadPort = s.loadPort := by
  cases hl : i.lane? with
  | none =>
    obtain ⟨len, es, rfl⟩ := (lane_eq_none_iff i).1 hl
    obtain ⟨-, ⟨-, rfl⟩ | ⟨-, rfl⟩⟩ := exec_load_next h <;> rfl
  | some l =>
    obtain ⟨ln, p, r, -, rfl, -⟩ := exec_lane_decoded hl h
    rfl

/-- The host puts a table transaction on a free load port only, and takes none off. -/
theorem hostAct_loadPort {s t : State} {a : HostAct} {ws : List Word} (hp : s.loadPort = some ws)
    (h : hostAct a s = .next t) : t.loadPort = some ws := by
  obtain ⟨-, rfl⟩ | ⟨ws', -, hfree, -⟩ | ⟨l, ln, ln', -, -, rfl⟩ := hostAct_cases h
  · exact hp
  · exact absurd hp (by simp [hfree])
  · exact hp

/-! ### The decode ports -/

/-- The command `op` waits at the decode port of lane `l` (30_encoding R57). -/
def State.CommandWaits (s : State) (l : Nat) (op : BitVec 1) : Prop :=
  ∃ ln, s.lanes[l]? = some ln ∧ ln.port = some op

/-- With `CB_OK = 0` a step that serves an operation serves a `LOAD`, and leaves the lanes. -/
theorem lanes_of_fetch_exec {s s' t : State} {i : Instr} (hc : s.cbOk = false) (hf : fetch s = some (.ok i, s'))
    (he : exec i s' = .next t) : t.lanes = s.lanes := by
  obtain ⟨hc', -⟩ | ⟨-, ws, -, hdec, rfl⟩ := fetch_cases hf
  · exact absurd hc (by simp [hc'])
  · obtain ⟨len, es, rfl⟩ := decodeLoad_ok hdec.symm
    exact (exec_load_lanes he :)

/-- The host puts a command on a free decode port only, and takes none off. -/
theorem LaneAct.port_eq {l : Nat} {ln ln' : Lane} {a : HostAct} {op : BitVec 1} (h : LaneAct l ln a ln')
    (hp : ln.port = some op) : ln'.port = some op := by
  cases h with
  | issueDecode _ hfree => exact absurd hp (by simp [hfree])
  | append | seek | attach => exact hp

theorem hostReset_commandWaits {s : State} {l : Nat} {op : BitVec 1} (hw : s.CommandWaits l op) :
    (hostReset s).CommandWaits l op := by
  obtain ⟨ln, hl, hp⟩ := hw
  exact ⟨ln.dropResp, hostReset_lane hl, hp⟩

/-- No act of the host takes a command off its port. -/
theorem hostAct_commandWaits {s t : State} {a : HostAct} {l : Nat} {op : BitVec 1} (hw : s.CommandWaits l op)
    (h : hostAct a s = .next t) : t.CommandWaits l op := by
  obtain ⟨-, rfl⟩ | ⟨ws, -, -, rfl⟩ | ⟨j, lnj, lnj', hlj, hact, rfl⟩ := hostAct_cases h
  · exact hostReset_commandWaits hw
  · exact hw
  · obtain ⟨ln, hl, hp⟩ := hw
    by_cases hj : l = j
    · subst hj
      obtain rfl : lnj = ln := Option.some.inj (hlj.symm.trans hl)
      exact ⟨lnj', lanes_set_self _ _ _ _ hl, hact.port_eq hp⟩
    · exact ⟨ln, (lanes_set_ne _ _ hj).trans hl, hp⟩

/-! ### The block that no port serves -/

theorem fetch_none_of_loaded {s : State} (hc : s.cbOk = true) (hp : ∀ ln ∈ s.lanes, ln.port = none) :
    fetch s = none := by
  simp [fetch, hc, (firstWaiting_none_iff 0 s.lanes).2 hp]

theorem fetch_none_of_empty {s : State} (hc : s.cbOk = false) (hp : s.loadPort = none) : fetch s = none := by
  simp [fetch, hc, hp]

/-- With nothing to serve and no act of the host left the step is what becomes of the waiting operations. -/
theorem step_eq_quiesce {s : State} (hf : fetch s = none) (ha : s.hostActs = []) : step s = quiesce s := by
  rw [step_of_fetch_none hf, hostTurn, ha]

/-- A loaded block is stuck on a waiting `LOAD`, else it holds its state (70_reset_and_hazards R144). -/
theorem quiesce_of_loaded {s : State} (hc : s.cbOk = true) :
    quiesce s = if s.loadPort = none then .next s else .fault .loadNotAccepted := by
  cases hp : s.loadPort <;> simp [quiesce, hc, hp]

/-- An empty block is stuck on a waiting decode, else it holds its state (70_reset_and_hazards R144). -/
theorem quiesce_of_empty {s : State} (hc : s.cbOk = false) :
    quiesce s = if ∀ ln ∈ s.lanes, ln.port = none then .next s else .fault .decodeNotAccepted := by
  simp only [← firstWaiting_none_iff 0]
  cases hw : firstWaiting 0 s.lanes <;> simp [quiesce, hc, hw]

/-! ### The statements -/

/-- Settles O9: no port is served, so the step holds the state unless an operation waits at the closed port. -/
theorem waitWithoutEndIsStuck : Obligations.WaitWithoutEndIsStuck := by
  refine fun s ha => ⟨fun hc hports => ?_, fun hc hload => ?_⟩
  · rw [step_eq_quiesce (fetch_none_of_loaded hc hports) ha, quiesce_of_loaded hc]
    exact ⟨fun hp => if_neg hp, fun hp => if_pos hp⟩
  · rw [step_eq_quiesce (fetch_none_of_empty hc hload) ha, quiesce_of_empty hc]
    exact ⟨fun ⟨ln, hln, hp⟩ => if_neg fun hall => hp (hall ln hln), fun hall => if_pos hall⟩

/-- Settles O10: the block serves the other kind of port, no instruction touches a port, and the host's acts fill
free ports only. -/
theorem waitingTransactionStays : Obligations.WaitingTransactionStays := by
  refine fun s t h => ⟨fun ws hc hp => ?_, fun l ln op hc hl hp => ?_⟩
  · obtain ⟨i, s', hf, he⟩ | ⟨-, a, rest, -, hact⟩ | ⟨-, -, rfl⟩ := step_cases h
    · exact (exec_loadPort he).trans ((fetch_loadPort hc hf).trans hp)
    · exact hostAct_loadPort (s := { s with hostActs := rest }) hp hact
    · exact hp
  · have hw : s.CommandWaits l op := ⟨ln, hl, hp⟩
    obtain ⟨i, s', hf, he⟩ | ⟨-, a, rest, -, hact⟩ | ⟨-, -, rfl⟩ := step_cases h
    · exact ⟨ln, lanes_of_fetch_exec hc hf he ▸ hl, hp⟩
    · exact hostAct_commandWaits (s := { s with hostActs := rest }) hw hact
    · exact hw

/-- Settles O2: the reset event leaves `hostReset s`, which has no codebook, so that a `LOAD` is accepted and no
decode is. -/
theorem resetEventDiscardsTheCodebook : Obligations.ResetEventDiscardsTheCodebook := by
  intro s
  refine ⟨hostReset s, rfl, rfl, rfl, rfl, entries_of_cbLen_zero rfl, rfl, hostReset_lanes_length s,
    fun l ln hl => ⟨ln.dropResp, hostReset_lane hl, rfl, rfl⟩, exists_exec_load_next rfl, fun l i hl hi => ?_⟩
  exact exec_lane_of_closed (hostReset_cbOk s) (isDecode_lane hi) (by rwa [hostReset_lanes_length])

end Sys2Proof.Machine

/-! PROOFS. The family of the reset state and the placed word: the machine as it starts, and a transaction placed at its
port with the port open for it. First what the fetch of a placed image is, then the statements. -/

namespace Sys2Proof.Machine

/-! ### The block with a codebook for a decode -/

@[simp] theorem withBook_cbOk (s : State) : s.withBook.cbOk = true := by
  unfold State.withBook
  split
  · assumption
  · rfl

@[simp] theorem withBook_hostActs (s : State) : s.withBook.hostActs = s.hostActs := by
  unfold State.withBook
  split <;> rfl

@[simp] theorem withBook_cfg (s : State) : s.withBook.cfg = s.cfg := by
  unfold State.withBook
  split <;> rfl

/-! ### The placed image -/

/-- A command is placed on lane 0 also where the block has no lane yet (log 12). -/
theorem placeOp_lane_zero (op : BitVec 1) (ls : List Lane) :
    ∃ ln, (placeOp op ls)[0]? = some ln ∧ ln.port = some op := by
  cases ls with
  | nil => exact ⟨_, rfl, rfl⟩
  | cons ln rest => exact ⟨_, rfl, rfl⟩

/-- A placed table is served next, whatever waits elsewhere: placing it takes the codebook away (log 12). -/
theorem fetch_place_loadPort (s : State) (ws : List Word) :
    fetch (s.place (.loadPort ws)) = some (decodeLoad ws, { s.clearShared with loadPort := none }) :=
  fetch_load rfl rfl

/-- A placed command is served next, whatever waits elsewhere: lane 0 has none below it (logs 7 and 12). -/
theorem fetch_place_decodePort (s : State) (l : Nat) (op : BitVec 1) :
    ∃ ln, fetch (s.place (.decodePort l op)) =
      some (.ok (decodeOp 0 op), (s.place (.decodePort l op)).setLane 0 ln) := by
  obtain ⟨ln, hln, hp⟩ := placeOp_lane_zero op s.lanes
  have hc : (s.place (.decodePort l op)).cbOk = true := withBook_cbOk s
  exact ⟨_, fetch_decode hc hln hp fun j ln' hj => absurd hj (Nat.not_lt_zero j)⟩

/-! ### What the bits of a word stand for -/

/-- Under 32 bits every word is a command of lane 0 (30_encoding R57). -/
theorem decodeTableWord_command {nbits : Nat} (h : nbits < 32) (w : Nat) :
    decodeTableWord nbits w = some (decodeOp 0 (BitVec.ofNat 1 w)) := by
  rw [decodeTableWord, tableImage, if_pos h]
  rfl

/-- From 32 bits on the decoder of the load port reads the bits. -/
theorem decodeLoad_of_decodeTableWord {nbits w : Nat} {i : Instr} (hn : ¬ nbits < 32)
    (h : decodeTableWord nbits w = some i) : decodeLoad (wordsOfNat (tableWords nbits) w) = .ok i := by
  rw [decodeTableWord, tableImage, if_neg hn, decode] at h
  cases hd : decodeLoad (wordsOfNat (tableWords nbits) w) with
  | error e =>
    rw [hd] at h
    cases h
  | ok j =>
    rw [hd] at h
    cases h
    rfl

/-- Bits that decode are fetched from their port as what they decode to; the placing has set `CB_OK` for them and
left the host's acts and the parameters. -/
theorem fetch_withFetchWord {nbits w : Nat} {i : Instr} (h : decodeTableWord nbits w = some i) (s : State) :
    ∃ s', fetch (s.withFetchWord nbits w) = some (.ok i, s') ∧
      s'.cbOk = decide (nbits < 32) ∧ s'.hostActs = s.hostActs ∧ s'.cfg = s.cfg := by
  by_cases hn : nbits < 32
  · obtain rfl : decodeOp 0 (BitVec.ofNat 1 w) = i := Option.some.inj ((decodeTableWord_command hn w).symm.trans h)
    obtain ⟨ln, hf⟩ := fetch_place_decodePort s 0 (BitVec.ofNat 1 w)
    rw [State.withFetchWord, tableImage, if_pos hn]
    exact ⟨_, hf, by simp [State.place, hn], by simp [State.place], by simp [State.place]⟩
  · rw [State.withFetchWord, tableImage, if_neg hn, fetch_place_loadPort, decodeLoad_of_decodeTableWord hn h]
    exact ⟨_, rfl, by simp [hn], rfl, rfl⟩

/-! ### The statements -/

/-- Settles O6: the placed word is the one fetched, and the step runs what was fetched. -/
theorem placedWordRunsNext : Obligations.PlacedWordRunsNext := by
  intro s nbits w i h
  obtain ⟨s', hf, hrest⟩ := fetch_withFetchWord h s
  exact ⟨s', hf, step_of_fetch_ok hf, hrest⟩

/-- The machine at reset has no codebook, so of the invariant only its lanes and empty store have something to meet. -/
theorem resetWith_inv (p : Config.Params) {n : Nat} (hn : 1 ≤ n) : (State.resetWith p n).Inv :=
  ⟨reset_memory_wf p n, by simpa [State.resetWith] using hn, fun _ => ⟨rfl, rfl⟩, nofun⟩

/-- Settles O3: `State.reset` is the machine at reset with two lanes. -/
theorem resetMeetsInvariant : Obligations.ResetMeetsInvariant :=
  ⟨resetWith_inv _ (by decide), fun p _ hn => resetWith_inv p hn⟩

end Sys2Proof.Machine
